-- ==== Sys2Proof/Word.lean ====
section
/-! DEFINITION. The word types of the block.  Every value is an unsigned bit vector (R7, R73);
the block's arithmetic is bitwise only. -/

namespace Sys2Proof

/-- A command word on the command port (R74). -/
abbrev Word := BitVec 32

/-- The contents of an 8-bit register, and one byte of the register map (R23, R41). -/
abbrev Byte := BitVec 8

/-- A register value of up to 16 bits, and the VAL field of a command word.  A value of an 8-bit
register is carried zero-extended (R75, R78). -/
abbrev Half := BitVec 16

/-- An address of the register map (R41: 16 bits). -/
abbrev Addr := BitVec 16

end Sys2Proof
end

