-- ==== Sys2Proof/Syntax.lean ====
section
/-! DEFINITION. The names of the block's parts, its value types, and the six commands of
spec/opcode_table.json. -/

namespace Sys2Proof

/-- The three instances of the block (R2). -/
inductive Dev where
  | d0 | d1 | d2
  deriving DecidableEq, Repr

/-- RES, the width of the count, compare and ceiling registers of an instance (R2, R6). -/
def Dev.res : Dev → Nat
  | .d0 => 8
  | .d1 => 16
  | .d2 => 8

/-- All three instances, in order. -/
def Dev.all : List Dev := [.d0, .d1, .d2]

/-- CHAN, the number of valid channels, 2 on every instance (R6, R62). -/
abbrev CHAN : Nat := 2

/-- A valid channel, an index of the channel table (R16: there are no entries for indices >= CHAN). -/
abbrev Slot := Fin CHAN

/-- The four channel names; C and D are reserved for larger timers (R61). -/
inductive Channel where
  | a | b | c | d
  deriving DecidableEq, Repr

/-- CompareOutputMode: what a compare match does to the pin (R63). -/
inductive ComMode where
  | disconnected | toggle | clear | set
  deriving DecidableEq, Repr

/-- The ten prescaler names (R65). -/
inductive Prescaler where
  | none | div1 | div8 | div32 | div64 | div128 | div256 | div1024 | extFalling | extRising
  deriving DecidableEq, Repr

/-- The two ports that carry channel pins (R30). -/
inductive Port where
  | b | d
  deriving DecidableEq, Repr

/-- The name of a register inside one instance's CSR file (R23).  CEIL exists on D1 only. -/
inductive Csr where
  | ctrlA | ctrlB | count | imask
  | compare (i : Slot)
  | ceil
  deriving DecidableEq, Repr

/-- A register of the register map, table M of R43: every register that exists and no other.
`ceil` is D1's ceiling register, the only one. -/
inductive Reg where
  | ctrlA (d : Dev) | ctrlB (d : Dev) | count (d : Dev) | imask (d : Dev)
  | compare (d : Dev) (i : Slot)
  | ceil
  | portOut (p : Port) | portDir (p : Port)
  deriving DecidableEq, Repr

/-- The name of a catalog constant (R92): those of tables W0, W1 and W2 (R95 to R97), and `other n` for
the names of a catalog with contents of its own.  A catalog is a parameter, and R94 (e) asks unique
names only; that further names are numbered is the model's (DESIGN CHOICE, notes/assumptions/25.md). -/
inductive WmName where
  | normal
  | phaseCorrectPwm | phaseCorrectPwm8 | phaseCorrectPwm9 | phaseCorrectPwm10
  | ctc | ctcCompareA | ctcCeil
  | fastPwm | fastPwm8 | fastPwm9 | fastPwm10
  | phaseFreqCorrectPwmCeil | phaseFreqCorrectPwmCompareA
  | phaseCorrectPwmCeil | phaseCorrectPwmCompareA
  | fastPwmCeil | fastPwmCompareA
  | other (n : Nat)
  deriving DecidableEq, Repr

/-- The TOP source of a waveform mode: exactly one of a constant and a register of the same
instance's CSR file (R86, R87). -/
inductive Top where
  | fixed (c : Half)
  | reg (r : Csr)
  deriving DecidableEq, Repr

/-- A WaveformMode value: the mode pattern (MODE_BITS = 6) and the TOP source (R14, R86). -/
structure WaveformMode where
  mode : BitVec 6
  top : Top
  deriving DecidableEq, Repr

/-- The document's equality of waveform modes: by pattern, the ceiling source is no part of it
(R88).  It is not the structural equality of the pair. -/
def WaveformMode.wmEq (a b : WaveformMode) : Bool := a.mode == b.mode

/-- One value for each valid channel. -/
structure PerChan (α : Type) where
  a : α
  b : α
  deriving DecidableEq, Repr

/-- One value for each CompareOutputMode. -/
structure PerMode (α : Type) where
  disconnected : α
  toggle : α
  clear : α
  set : α
  deriving DecidableEq, Repr

/-- One value for each instance. -/
structure PerDev (α : Type) where
  d0 : α
  d1 : α
  d2 : α
  deriving DecidableEq, Repr

/-- One value for each port. -/
structure PerPort (α : Type) where
  b : α
  d : α
  deriving DecidableEq, Repr

def PerChan.get {α : Type} (p : PerChan α) (i : Slot) : α := if i = 0 then p.a else p.b

def PerChan.set {α : Type} (p : PerChan α) (i : Slot) (v : α) : PerChan α :=
  if i = 0 then { p with a := v } else { p with b := v }

def PerMode.get {α : Type} (p : PerMode α) : ComMode → α
  | .disconnected => p.disconnected
  | .toggle => p.toggle
  | .clear => p.clear
  | .set => p.set

def PerDev.get {α : Type} (p : PerDev α) : Dev → α
  | .d0 => p.d0
  | .d1 => p.d1
  | .d2 => p.d2

def PerDev.set {α : Type} (p : PerDev α) (d : Dev) (v : α) : PerDev α :=
  match d with
  | .d0 => { p with d0 := v }
  | .d1 => { p with d1 := v }
  | .d2 => { p with d2 := v }

def PerPort.get {α : Type} (p : PerPort α) : Port → α
  | .b => p.b
  | .d => p.d

/-- The commands, one constructor for each row of spec/opcode_table.json (R74 to R76).  The
instance is no field of the word: it is the one the word is presented to (R82). -/
inductive Instr where
  /-- CONFIG (R102): selectors of the waveform mode and of the prescaler. -/
  | config (wmid : BitVec 6) (psid : BitVec 4)
  /-- ACTIVATE (R103): overflow-interrupt enable and TOP value. -/
  | activate (ie : Bool) (val : Half)
  /-- ACTCH (R108): channel, code of the compare-output mode (COM_CODE of the instance, R75),
  interrupt enable and compare value. -/
  | actch (ch : Channel) (com : BitVec 2) (ie : Bool) (val : Half)
  /-- ACTPIN (R116): channel. -/
  | actpin (ch : Channel)
  /-- UPDTOP (R114): the new TOP value. -/
  | updtop (val : Half)
  /-- UPDCMP (R109): channel and compare value. -/
  | updcmp (ch : Channel) (val : Half)
  deriving DecidableEq, Repr

end Sys2Proof
end

