-- ==== Sys2Proof/Config.lean ====
section
/-! DEFINITION. The configuration record of the block (R6, table P): what an implementation fixes.
Its default values are in Sys2Proof/Machine/Tables.lean.  The model has no opaque free value: the
only values the spec leaves free, the draws of the counter and of the handler, are inputs held in
State (`agenda`). -/

namespace Sys2Proof

/-- One row of a waveform-mode catalog: selector, name, mode pattern and TOP source (R92). -/
structure CatalogRow where
  wmid : BitVec 6
  name : WmName
  wm : WaveformMode
  deriving DecidableEq, Repr

/-- The configuration of one instance: the fields of table P (R6) that are data of the instance. -/
structure DevConfig where
  /-- ADDR of the instance's registers; CEIL is in `Config`, since only D1 has it (R43). -/
  addrCtrlA : Addr
  addrCtrlB : Addr
  addrCount : Addr
  addrImask : Addr
  addrCompare : PerChan Addr
  /-- WGM_A_LSB: the bit of CTRLA that receives mode bit 0. -/
  wgmALsb : Nat
  /-- WGM_B_SHIFT: the left shift of the remaining mode bits in CTRLB (R69). -/
  wgmBShift : Nat
  /-- CS_LSB: the lowest bit of the clock-select field in CTRLB. -/
  csLsb : Nat
  /-- CS_WIDTH: the width of the clock-select field. -/
  csWidth : Nat
  /-- COM_OFFSET: the bit offset in CTRLA of each channel's 2-bit field (R70). -/
  comOffset : PerChan Nat
  /-- TOIE_BIT of IMASK (R71). -/
  toieBit : Nat
  /-- OCIE_BIT of IMASK, one for each channel (R71). -/
  ocieBit : PerChan Nat
  /-- COM_CODE: the 2-bit code of each CompareOutputMode (R64). -/
  comCode : PerMode (BitVec 2)
  /-- PS_CODE: the instance's prescaler enumeration with its clock-select codes, as the 8-bit values
  they are zero-extended to (R66, R67). -/
  psCode : List (Prescaler × Byte)
  /-- WM_CATALOG: the legal waveform modes (R92). -/
  catalog : List CatalogRow
  /-- PIN: port and bit of each channel's output pin (R30). -/
  pin : PerChan (Port × Nat)
  /-- ZERO_ORDER: the order of the four zero writes of ACTIVATE (R103). -/
  zeroOrder : List Csr
  deriving DecidableEq, Repr

/-- The configuration of the three instances and of what they share (R6, R39). -/
structure Config where
  dev : PerDev DevConfig
  /-- ADDR of CEIL, on D1 only (R43). -/
  addrCeil : Addr
  addrPortOut : PerPort Addr
  addrPortDir : PerPort Addr
  /-- CSR_RESET: the registers whose reset value is not zero, with that value (R34). -/
  csrReset : List (Reg × Half)
  deriving DecidableEq, Repr

end Sys2Proof
end

