-- ==== Sys2Proof/Machine/Tables.lean ====
section
/-! DEFINITION. The register map as a function of the configuration, the constraints a configuration
must meet, and the default tables of the spec: table M (R43), table P (R6), table PS (R66), tables
W0, W1, W2 (R95 to R97).  PRESUMED: the default numbers are the spec's general-knowledge values for
the ATmega328P (notes/assumptions/9.md). -/

namespace Sys2Proof

/-! ### The register map -/

/-- The name a register of an instance's CSR file has in the register map; none where the instance
lacks it: CEIL exists on D1 only (R23). -/
def Csr.on (d : Dev) : Csr → Option Reg
  | .ctrlA => some (.ctrlA d)
  | .ctrlB => some (.ctrlB d)
  | .count => some (.count d)
  | .imask => some (.imask d)
  | .compare i => some (.compare d i)
  | .ceil => match d with
    | .d1 => some .ceil
    | .d0 => none
    | .d2 => none

/-- The width of a register in bytes (R23, R30): COUNT, COMPARE and CEIL are RES bits wide. -/
def Reg.bytes : Reg → Nat
  | .count d => d.res / 8
  | .compare d _ => d.res / 8
  | .ceil => 2
  | .ctrlA _ => 1
  | .ctrlB _ => 1
  | .imask _ => 1
  | .portOut _ => 1
  | .portDir _ => 1

/-- ADDR, the address of a register; of a 16-bit register, the address of its low byte (R43, R47). -/
def Config.addr (c : Config) : Reg → Addr
  | .ctrlA d => (c.dev.get d).addrCtrlA
  | .ctrlB d => (c.dev.get d).addrCtrlB
  | .count d => (c.dev.get d).addrCount
  | .imask d => (c.dev.get d).addrImask
  | .compare d i => (c.dev.get d).addrCompare.get i
  | .ceil => c.addrCeil
  | .portOut p => c.addrPortOut.get p
  | .portDir p => c.addrPortDir.get p

/-- The registers of one instance that every instance has. -/
def Dev.regs (d : Dev) : List Reg :=
  [.ctrlA d, .ctrlB d, .count d, .imask d, .compare d 0, .compare d 1]

/-- Every register of table M. -/
def Reg.all : List Reg :=
  Dev.d0.regs ++ Dev.d1.regs ++ Dev.d2.regs ++
    [.ceil, .portOut .b, .portOut .d, .portDir .b, .portDir .d]

/-- The register that starts at an address with a width in bytes, if table M has one (R42, R48). -/
def Config.regAt (c : Config) (a : Addr) (n : Nat) : Option Reg :=
  Reg.all.find? fun r => c.addr r == a && r.bytes == n

/-! ### Constraints on a configuration -/

/-- Two registers share no byte of the register map. -/
def Config.apart (c : Config) (r r' : Reg) : Bool :=
  decide ((c.addr r).toNat + r.bytes ≤ (c.addr r').toNat) ||
    decide ((c.addr r').toNat + r'.bytes ≤ (c.addr r).toNat)

/-- ADDR is injective, byte for byte, and stays inside the 16-bit address space (R41, R43). -/
def Config.addrOk (c : Config) : Bool :=
  Reg.all.all fun r =>
    decide ((c.addr r).toNat + r.bytes ≤ 65536) &&
      Reg.all.all fun r' => r == r' || c.apart r r'

/-- A constraint of R94 (d) and (c) on a TOP source: a constant fits RES bits; a register is
COMPARE[0] of any instance, or CEIL of D1. -/
def Dev.topOk (d : Dev) : Top → Bool
  | .fixed c => decide (c.toNat < 2 ^ d.res)
  | .reg r => r == .compare 0 || (r == .ceil && d == .d1)

/-- R94 (b): mode[5:4] = 0 on every instance, mode[3] = 0 on the 8-bit ones. -/
def Dev.modeOk (d : Dev) (m : BitVec 6) : Bool :=
  if d.res = 8 then m.extractLsb' 3 3 == 0 else m.extractLsb' 4 2 == 0

/-- The constraints every catalog must meet: R94 (b) to (e); (a) holds by type, and a selector
names one row (R92). -/
def Config.catalogOk (c : Config) (d : Dev) : Bool :=
  (c.dev.get d).catalog.all (fun r => d.modeOk r.wm.mode && d.topOk r.wm.top) &&
    decide ((c.dev.get d).catalog.map CatalogRow.name).Nodup &&
    decide ((c.dev.get d).catalog.map CatalogRow.wmid).Nodup

/-- Two bit fields, each an offset and a width, share no bit. -/
def fieldsApart (a wa b wb : Nat) : Bool := decide (a + wa ≤ b) || decide (b + wb ≤ a)

/-- The bit positions of one instance: every field lies in its 8-bit register, the COM and WGM
fields of CTRLA are disjoint, so are WGM and CS in CTRLB, and the three enable bits of IMASK are
distinct; pins lie in their port (92_eei_decisions.md, "Parameters left OPEN, collected"). -/
def DevConfig.bitsOk (c : DevConfig) : Bool :=
  decide (c.wgmALsb + 2 ≤ 8) && decide (c.comOffset.a + 2 ≤ 8) && decide (c.comOffset.b + 2 ≤ 8) &&
    fieldsApart c.wgmALsb 2 c.comOffset.a 2 && fieldsApart c.wgmALsb 2 c.comOffset.b 2 &&
    fieldsApart c.comOffset.a 2 c.comOffset.b 2 &&
    decide (c.csLsb + c.csWidth ≤ 8) && decide (c.wgmBShift + 2 ≤ 8) &&
    fieldsApart c.wgmBShift 2 c.csLsb c.csWidth &&
    decide (c.toieBit < 8) && decide (c.ocieBit.a < 8) && decide (c.ocieBit.b < 8) &&
    decide (c.toieBit ≠ c.ocieBit.a) && decide (c.toieBit ≠ c.ocieBit.b) &&
    decide (c.ocieBit.a ≠ c.ocieBit.b) &&
    decide (c.pin.a.2 < 8) && decide (c.pin.b.2 < 8)

/-- The codes of one instance: every one of the four 2-bit codes names one CompareOutputMode (R63), and
every clock-select code fits its field (R66). -/
def DevConfig.codesOk (c : DevConfig) : Bool :=
  decide ([c.comCode.disconnected, c.comCode.toggle, c.comCode.clear, c.comCode.set]).Nodup &&
    c.psCode.all fun p => decide (p.2.toNat < 2 ^ c.csWidth)

/-- ZERO_ORDER is a permutation of the zero set CTRLA, CTRLB, COUNT, IMASK (R6, R103). -/
def DevConfig.zeroOrderOk (c : DevConfig) : Bool :=
  c.zeroOrder.isPerm [.ctrlA, .ctrlB, .count, .imask]

/-- A configuration that is an instance of the spec. -/
def Config.wf (c : Config) : Bool :=
  c.addrOk && Dev.all.all fun d =>
    c.catalogOk d && (c.dev.get d).bitsOk && (c.dev.get d).codesOk && (c.dev.get d).zeroOrderOk

/-! ### Default tables -/

/-- Table PS (R66), the enumeration of D0 and of D1. -/
def psCodeExternal : List (Prescaler × Byte) :=
  [(.none, 0b000), (.div1, 0b001), (.div8, 0b010), (.div64, 0b011), (.div256, 0b100),
   (.div1024, 0b101), (.extFalling, 0b110), (.extRising, 0b111)]

/-- Table PS (R66), the enumeration of D2. -/
def psCodeInternal : List (Prescaler × Byte) :=
  [(.none, 0b000), (.div1, 0b001), (.div8, 0b010), (.div32, 0b011), (.div64, 0b100),
   (.div128, 0b101), (.div256, 0b110), (.div1024, 0b111)]

/-- A catalog row whose selector is its pattern, as in every default catalog (R92). -/
def catalogRow (m : BitVec 6) (name : WmName) (top : Top) : CatalogRow := ⟨m, name, ⟨m, top⟩⟩

/-- Tables W0 and W2 (R95, R97): the catalog of the 8-bit units. -/
def catalog8 : List CatalogRow :=
  [catalogRow 0 .normal (.fixed 0xFF),
   catalogRow 1 .phaseCorrectPwm (.fixed 0xFF),
   catalogRow 2 .ctc (.reg (.compare 0)),
   catalogRow 3 .fastPwm (.fixed 0xFF),
   catalogRow 5 .phaseCorrectPwmCompareA (.reg (.compare 0)),
   catalogRow 7 .fastPwmCompareA (.reg (.compare 0))]

/-- Table W1 (R96): the catalog of the 16-bit unit. -/
def catalog16 : List CatalogRow :=
  [catalogRow 0 .normal (.fixed 0xFFFF),
   catalogRow 1 .phaseCorrectPwm8 (.fixed 0x00FF),
   catalogRow 2 .phaseCorrectPwm9 (.fixed 0x01FF),
   catalogRow 3 .phaseCorrectPwm10 (.fixed 0x03FF),
   catalogRow 4 .ctcCompareA (.reg (.compare 0)),
   catalogRow 5 .fastPwm8 (.fixed 0x00FF),
   catalogRow 6 .fastPwm9 (.fixed 0x01FF),
   catalogRow 7 .fastPwm10 (.fixed 0x03FF),
   catalogRow 8 .phaseFreqCorrectPwmCeil (.reg .ceil),
   catalogRow 9 .phaseFreqCorrectPwmCompareA (.reg (.compare 0)),
   catalogRow 10 .phaseCorrectPwmCeil (.reg .ceil),
   catalogRow 11 .phaseCorrectPwmCompareA (.reg (.compare 0)),
   catalogRow 12 .ctcCeil (.reg .ceil),
   catalogRow 14 .fastPwmCeil (.reg .ceil),
   catalogRow 15 .fastPwmCompareA (.reg (.compare 0))]

/-- The fields of table P that have the same default on the three instances. -/
def DevConfig.withDefaults (ctrlA ctrlB count imask cmpA cmpB : Addr)
    (ps : List (Prescaler × Byte)) (catalog : List CatalogRow)
    (pinA pinB : Port × Nat) : DevConfig where
  addrCtrlA := ctrlA
  addrCtrlB := ctrlB
  addrCount := count
  addrImask := imask
  addrCompare := ⟨cmpA, cmpB⟩
  wgmALsb := 0
  wgmBShift := 3
  csLsb := 0
  csWidth := 3
  comOffset := ⟨6, 4⟩
  toieBit := 0
  ocieBit := ⟨1, 2⟩
  comCode := ⟨0, 1, 2, 3⟩
  psCode := ps
  catalog := catalog
  pin := ⟨pinA, pinB⟩
  zeroOrder := [.ctrlA, .ctrlB, .count, .imask]

/-- The default configuration: tables P and M with every default value (R6, R43). -/
def Config.default : Config where
  dev :=
    { d0 := .withDefaults 0x44 0x45 0x46 0x6E 0x47 0x48 psCodeExternal catalog8 (.d, 6) (.d, 5)
      d1 := .withDefaults 0x80 0x81 0x84 0x6F 0x88 0x8A psCodeExternal catalog16 (.b, 1) (.b, 2)
      d2 := .withDefaults 0xB0 0xB1 0xB2 0x70 0xB3 0xB4 psCodeInternal catalog8 (.b, 3) (.d, 3) }
  addrCeil := 0x86
  addrPortOut := ⟨0x25, 0x2B⟩
  addrPortDir := ⟨0x24, 0x2A⟩
  csrReset := []

end Sys2Proof
end

