-- ==== Sys2Proof/WellFormed.lean ====
section
/-! DEFINITION. Which commands an instance may be given: the checks of R78 and R79 on a command's
operands.  (That the word matches its row of the opcode table is the decoder's; the phase is the
machine's.) -/

namespace Sys2Proof

/-- R78: a VAL operand fits the instance's RES bits. -/
def valWellFormed (d : Dev) (v : Half) : Bool := decide (v.toNat < 2 ^ d.res)

/-- R79: a WMID operand is a selector of the instance's catalog. -/
def wmidWellFormed (c : Config) (d : Dev) (w : BitVec 6) : Bool :=
  ((c.dev.get d).catalog.map CatalogRow.wmid).contains w

/-- The prescaler name a selector stands for on every instance, column PSID of table PS (R67). -/
def prescalerOfPsid (p : BitVec 4) : Option Prescaler :=
  [Prescaler.none, .div1, .div8, .div32, .div64, .div128, .div256, .div1024, .extFalling,
    .extRising][p.toNat]?

/-- R67, R79: a PSID operand names a prescaler of the instance's enumeration. -/
def psidWellFormed (c : Config) (d : Dev) (p : BitVec 4) : Bool :=
  match prescalerOfPsid p with
  | none => false
  | some ps => ((c.dev.get d).psCode.map Prod.fst).contains ps

/-- A command whose operands the instance accepts.  A channel out of range is no fault of form: it
makes a silent no-op (R62, R80). -/
def Instr.wf (c : Config) (d : Dev) : Instr → Bool
  | .config wmid psid => c.catalogOk d && wmidWellFormed c d wmid && psidWellFormed c d psid
  | .activate _ val => valWellFormed d val
  | .actch _ _ _ val => valWellFormed d val
  | .actpin _ => true
  | .updtop val => valWellFormed d val
  | .updcmp _ val => valWellFormed d val

end Sys2Proof
end

