-- ==== Sys2Proof/Decode.lean ====
section
/-! DEFINITION. The command word: the opcode table, the decoder, total on every 32-bit word, the
encoder, and the assembler forms (R74 to R85).  The decoder is step (1) of R81; steps (2) to (4)
need the instance and are `Machine.legality`. -/

namespace Sys2Proof

/-- The operation a row of the opcode table stands for. -/
inductive Op where
  | config | activate | actch | actpin | updtop | updcmp
  deriving DecidableEq, Repr

/-- A row of spec/opcode_table.json: the columns `match` and `mask`. -/
structure OpcodeRow where
  op : Op
  pattern : Word
  mask : Word
  deriving DecidableEq, Repr

/-- spec/opcode_table.json, row for row. -/
def opcodeTable : List OpcodeRow :=
  [⟨.config, 0x10000000, 0xFFFFC0F0⟩,
   ⟨.activate, 0x20000000, 0xFF7F0000⟩,
   ⟨.actch, 0x30000000, 0xF07F0000⟩,
   ⟨.actpin, 0x40000000, 0xF3FFFFFF⟩,
   ⟨.updtop, 0x50000000, 0xFFFF0000⟩,
   ⟨.updcmp, 0x60000000, 0xF3FF0000⟩]

/-- The row's test of a word: `(w & mask) == match` (R81 (1)). -/
def OpcodeRow.covers (r : OpcodeRow) (w : Word) : Bool := w &&& r.mask == r.pattern

/-- Why a word spells no command (R76, R77). -/
inductive DecodeError where
  | reservedOpcode
  | mustBeZero
  deriving DecidableEq, Repr

/-- The index of a channel, in the order the document lists the names (R61). -/
def Channel.index : Channel → BitVec 2
  | .a => 0
  | .b => 1
  | .c => 2
  | .d => 3

def Channel.ofIndex (i : BitVec 2) : Channel :=
  if i = 0 then .a else if i = 1 then .b else if i = 2 then .c else .d

/-- The fields of a command word (R75). -/
def fieldOp (w : Word) : BitVec 4 := w.extractLsb' 28 4
def fieldCh (w : Word) : Channel := .ofIndex (w.extractLsb' 26 2)
def fieldCom (w : Word) : BitVec 2 := w.extractLsb' 24 2
def fieldIe (w : Word) : Bool := w.getLsbD 23
def fieldVal (w : Word) : Half := w.extractLsb' 0 16
def fieldWmid (w : Word) : BitVec 6 := w.extractLsb' 8 6
def fieldPsid (w : Word) : BitVec 4 := w.extractLsb' 0 4

/-- The command of an operation with the operands of a word (R75, R76). -/
def Op.operands (w : Word) : Op → Instr
  | .config => .config (fieldWmid w) (fieldPsid w)
  | .activate => .activate (fieldIe w) (fieldVal w)
  | .actch => .actch (fieldCh w) (fieldCom w) (fieldIe w) (fieldVal w)
  | .actpin => .actpin (fieldCh w)
  | .updtop => .updtop (fieldVal w)
  | .updcmp => .updcmp (fieldCh w) (fieldVal w)

/-- An opcode of some row; the others, 0x0 and 0x7 to 0xF, are reserved (R76). -/
def opcodeAllocated (w : Word) : Bool := decide (1 ≤ (fieldOp w).toNat ∧ (fieldOp w).toNat ≤ 6)

/-- Decoding a command word (R81 (1)). -/
def decode (w : Word) : Except DecodeError Instr :=
  match opcodeTable.find? (·.covers w) with
  | some r => .ok (r.op.operands w)
  | none => .error (if opcodeAllocated w then .mustBeZero else .reservedOpcode)

/-- Encoding of each command, the formulas of R84. -/
def encode : Instr → Word
  | .config wmid psid => 0x10000000 ||| (wmid.setWidth 32 <<< 8) ||| psid.setWidth 32
  | .activate ie val => 0x20000000 ||| ((BitVec.ofBool ie).setWidth 32 <<< 23) ||| val.setWidth 32
  | .actch ch com ie val =>
    0x30000000 ||| (ch.index.setWidth 32 <<< 26) ||| (com.setWidth 32 <<< 24) |||
      ((BitVec.ofBool ie).setWidth 32 <<< 23) ||| val.setWidth 32
  | .actpin ch => 0x40000000 ||| (ch.index.setWidth 32 <<< 26)
  | .updtop val => 0x50000000 ||| val.setWidth 32
  | .updcmp ch val => 0x60000000 ||| (ch.index.setWidth 32 <<< 26) ||| val.setWidth 32

/-- The instruction the decoder reads from an instruction whose bits are `w`, numbered as the
opcode table numbers them.  A command word is one 32-bit word (R74). -/
def decodeTableWord (nbits w : Nat) : Option Instr :=
  if nbits ≤ 32 ∧ w < 2 ^ 32 then (decode (BitVec.ofNat 32 w)).toOption else none

/-! ### Assembler forms (R82, R83) -/

/-- How an assembler line names a waveform mode: by catalog name or by selector (R82). -/
inductive WmOperand where
  | name (n : WmName)
  | wmid (w : BitVec 6)
  deriving DecidableEq, Repr

/-- The lines of R82, less `<dev>`, which selects the port.  The IE operand of ACTIVATE may be
left out. -/
inductive AsmLine where
  | config (wm : WmOperand) (ps : Prescaler)
  | activate (top : Half) (ie : Option Bool)
  | actch (ch : Channel) (value : Half) (com : ComMode) (ie : Bool)
  | actpin (ch : Channel)
  | updtop (top : Half)
  | updcmp (ch : Channel) (value : Half)
  deriving DecidableEq, Repr

/-- PSID of a prescaler name (R67, column PSID of table PS). -/
def Prescaler.psid : Prescaler → BitVec 4
  | .none => 0
  | .div1 => 1
  | .div8 => 2
  | .div32 => 3
  | .div64 => 4
  | .div128 => 5
  | .div256 => 6
  | .div1024 => 7
  | .extFalling => 8
  | .extRising => 9

/-- The selector a line names: a name is looked up in the instance's catalog, where names are
unique (R94 (e)). -/
def WmOperand.selector (c : Config) (d : Dev) : WmOperand → Option (BitVec 6)
  | .wmid w => some w
  | .name n => ((c.dev.get d).catalog.find? (·.name == n)).map CatalogRow.wmid

/-- The command an assembler line for an instance stands for; an absent IE is 0 (R83), and a
CompareOutputMode is spelt by the instance's COM_CODE (R75). -/
def assemble (c : Config) (d : Dev) : AsmLine → Option Instr
  | .config wm ps => (wm.selector c d).map fun w => .config w ps.psid
  | .activate top ie => some (.activate (ie.getD false) top)
  | .actch ch value com ie => some (.actch ch ((c.dev.get d).comCode.get com) ie value)
  | .actpin ch => some (.actpin ch)
  | .updtop top => some (.updtop top)
  | .updcmp ch value => some (.updcmp ch value)

end Sys2Proof
end

