-- ==== Sys2Proof/Machine/Memory.lean ====
section
/-! DEFINITION. The storage behind the register map: one byte-addressed space (R41), held as a list
of cells in one canonical form, and access to a whole register (R44, R45, R47, R48). -/

namespace Sys2Proof.Machine

/-- Cells with strictly rising addresses, none equal to what an unlisted address reads as. -/
abbrev Memory := List Host.Cell

/-- What an unlisted address reads as: the default CSR_RESET (R34, notes/assumptions/7.md). -/
def unlistedByte : Byte := 0

/-- The byte at an address. -/
def Memory.read : Memory → Nat → Byte
  | [], _ => unlistedByte
  | (k, v) :: m, a => if k = a then v else Memory.read m a

/-- The cells of every other address. -/
def Memory.without (m : Memory) (a : Nat) : Memory := m.filter fun c => c.1 != a

/-- Put a cell before the first cell of a higher address. -/
def Memory.place : Memory → Nat → Byte → Memory
  | [], a, v => [(a, v)]
  | (k, x) :: m, a, v => if a < k then (a, v) :: (k, x) :: m else (k, x) :: Memory.place m a v

/-- Store a byte, keeping the canonical form: the value of an unlisted address is not listed. -/
def Memory.write (m : Memory) (a : Nat) (v : Byte) : Memory :=
  if v = unlistedByte then m.without a else (m.without a).place a v

/-- The canonical form: addresses strictly rising, no entry equal to the unlisted byte. -/
def Memory.wf : Memory → Bool
  | [] => true
  | (k, v) :: m => v != unlistedByte && m.all (fun c => decide (k < c.1)) && Memory.wf m

/-- The value of a register: one byte, or two bytes with the low byte at the lower address
(R44, R47). -/
def Memory.readReg (c : Config) (m : Memory) (r : Reg) : Half :=
  let a := (c.addr r).toNat
  if r.bytes = 2 then m.read (a + 1) ++ m.read a else (m.read a).setWidth 16

/-- The value of a register after `v` is written to it: all of `v`, or its low byte (R45). -/
def fitReg (r : Reg) (v : Half) : Half := if r.bytes = 2 then v else (v.setWidth 8).setWidth 16

/-- Write every bit of a register (R45, R47). -/
def Memory.writeReg (c : Config) (m : Memory) (r : Reg) (v : Half) : Memory :=
  let a := (c.addr r).toNat
  if r.bytes = 2 then (m.write a (v.setWidth 8)).write (a + 1) (v.extractLsb' 8 8)
  else m.write a (v.setWidth 8)

/-- The byte addresses a register occupies (R43). -/
def occupies (c : Config) (r : Reg) (a : Nat) : Bool :=
  decide ((c.addr r).toNat ≤ a ∧ a < (c.addr r).toNat + r.bytes)

/-- The register contents after reset: CSR_RESET of every register (R34). -/
def Memory.ofReset (c : Config) : Memory :=
  c.csrReset.foldl (fun m p => Memory.writeReg c m p.1 p.2) []

end Sys2Proof.Machine
end

