-- ==== Sys2Proof/Machine/State.lean ====
section
/-! DEFINITION. The state of the machine: the three instances, the register map, the input `gie`,
the configuration, and the inputs a deterministic step reads (R10, R13, R36). -/

namespace Sys2Proof.Machine

/-- E.phase (R17). -/
inductive Phase where
  | unconfigured | uninitialized | running
  deriving DecidableEq, Repr

/-- The engine, ghost and sequencer registers of one instance (R13 (1) to (3)). -/
structure Inst where
  /-- E.phase (R17). -/
  phase : Phase
  /-- E.wm, the captured waveform mode (R14). -/
  wm : WaveformMode
  /-- E.ps, the captured prescaler (R15). -/
  ps : Prescaler
  /-- E.ch[i].com, the recorded compare-output modes (R16). -/
  com : PerChan ComMode
  /-- E.chActive[i] (R18). -/
  chActive : PerChan Bool
  /-- A command is in progress (R19). -/
  busy : Bool
  /-- The latch of the accepted command word (R19). -/
  cmd : Word
  /-- The micro-step index (R20). -/
  seq : BitVec 4
  /-- The temporary of a read-modify-write (R21). -/
  t : Byte
  deriving DecidableEq, Repr

/-- A move the environment makes at an interleaving point (R10, R50). -/
inductive EnvMove where
  /-- The counter of an instance draws a new COUNT (R52). -/
  | tick (d : Dev) (v : Half)
  /-- The handler reads `bytes` bytes at an address (R53). -/
  | busRead (addr : Addr) (bytes : Nat)
  /-- The handler writes `bytes` bytes at an address (R53). -/
  | busWrite (addr : Addr) (bytes : Nat) (v : Half)
  /-- The processor changes its global interrupt enable (R31). -/
  | setGie (b : Bool)
  /-- The chip's reset (R133). -/
  | reset
  deriving DecidableEq, Repr

/-- An entry of the bus trace (R60). -/
inductive BusEvent where
  /-- `R reg -> v`, by the sequencer. -/
  | seqRead (r : Reg) (v : Half)
  /-- `W reg v`, by the sequencer. -/
  | seqWrite (r : Reg) (v : Half)
  /-- `H: R reg -> v`. -/
  | handlerRead (r : Reg) (v : Half)
  /-- `H: W reg v`. -/
  | handlerWrite (r : Reg) (v : Half)
  /-- A handler access that is no full-width access of a register, refused (R48, U17). -/
  | handlerRefused (addr : Addr) (bytes : Nat)
  /-- `C: COUNT := v` of an instance. -/
  | counter (d : Dev) (v : Half)
  deriving DecidableEq, Repr

/-- The machine's state. -/
structure State where
  /-- The configuration record, a parameter: no step changes it (R6, R36). -/
  cfg : Config
  /-- The three instances (R39). -/
  inst : PerDev Inst
  /-- The register map: the CSR files and the port registers (R23, R30, R41). -/
  mem : Memory
  /-- The global interrupt enable, an input (R31). -/
  gie : Bool
  /-- The command words the issuer has still to present, each with its instance (R10, R82). -/
  port : List (Dev × Word)
  /-- The instance the present word was presented to: the model's own (notes/assumptions/4.md). -/
  target : Dev
  /-- The environment's moves, one list for each coming interleaving point: the model's own
  (R50, notes/assumptions/2.md). -/
  agenda : List (List EnvMove)
  /-- The bus trace, oldest first: an observer, read by no step (R60, notes/assumptions/14.md). -/
  trace : List BusEvent
  deriving DecidableEq, Repr

/-- Why the machine stops.  Each can be met only in a state that no run from reset reaches
(notes/assumptions/13.md); stopping there is safe. -/
inductive Fault where
  /-- Raised by ACTIVATE and UPDTOP when E.wm names a ceiling register the instance does not have
  (R23, R94 (d)).  Safe. -/
  | absentCeiling
  /-- Raised by ACTIVATE when E.ps is not in the instance's enumeration and so has no clock-select
  code (R66).  Safe. -/
  | prescalerWithoutCode
  deriving DecidableEq, Repr

/-- Why a word is refused: the spec's own third outcome (R9, R76).  A refusal changes no register and
issues no transaction; refusing is what the spec says, so it is safe. -/
inductive Refusal where
  /-- Raised by an arm of `exec` that has no meaning.  No arm is left so.  Safe. -/
  | notModelled (mnemonic : String)
  /-- Raised by the decoder on OP 0x0 and 0x7 to 0xF (R76, U8).  Safe. -/
  | reservedOpcode
  /-- Raised by the decoder on a must-be-zero bit that is one (R77, U9).  Safe. -/
  | mustBeZero
  /-- Raised by every command but CONFIG in UNCONFIGURED (R17, U12).  Safe. -/
  | unconfigured
  /-- Raised by CONFIG when WMID is not in the instance's catalog (R79, R99, U10).  Safe. -/
  | wmidNotInCatalog
  /-- Raised by CONFIG when PSID names no prescaler of the instance (R67, R79, U10).  Safe. -/
  | psidNotOnDevice
  /-- Raised by ACTIVATE, ACTCH, UPDTOP and UPDCMP when VAL does not fit RES bits (R78, U11).
  Safe. -/
  | valTooWide
  /-- Raised by CONFIG when the instance's catalog breaks a constraint of R94 (U18).  Safe. -/
  | catalogOutsideSpec
  deriving DecidableEq, Repr

/-- The outcome of a step of this machine. -/
abbrev Outcome := Host.Outcome State Fault Refusal

/-- An instance after reset (R33, R134).  The spec gives E.wm, E.ps, cmd and t no value there: those
four are the model's (DESIGN CHOICE, notes/assumptions/6.md). -/
def Inst.reset : Inst where
  phase := .unconfigured
  wm := ⟨0, .fixed 0⟩
  ps := .none
  com := ⟨.disconnected, .disconnected⟩
  chActive := ⟨false, false⟩
  busy := false
  cmd := 0
  seq := 0
  t := 0

/-- The machine with a configuration after reset (R134). -/
def State.resetWith (c : Config) : State where
  cfg := c
  inst := ⟨.reset, .reset, .reset⟩
  mem := Memory.ofReset c
  gie := false
  port := []
  target := .d1
  agenda := []
  trace := []

/-- The machine right after reset, with the default configuration (R134). -/
def State.reset : State := State.resetWith Config.default

end Sys2Proof.Machine
end

