-- ==== Sys2Proof/Machine/Operands.lean ====
section
/-! DEFINITION. What a command's operands select and contribute: catalog and prescaler look-ups,
the channel guard, the contributions to control registers A and B, the pin masks (R61 to R72, R91,
R92), and the legality of a command (R81 (2) to (4)). -/

namespace Sys2Proof.Machine

/-! ### Look-ups -/

/-- wmDecode: the waveform mode of a selector in an instance's catalog (R92). -/
def wmDecode (c : Config) (d : Dev) (wmid : BitVec 6) : Option WaveformMode :=
  ((c.dev.get d).catalog.find? (·.wmid == wmid)).map CatalogRow.wm

/-- PS_CODE of a prescaler on an instance, if it is in the instance's enumeration (R66). -/
def psCode (c : Config) (d : Dev) (ps : Prescaler) : Option Byte :=
  ((c.dev.get d).psCode.find? (·.1 == ps)).map Prod.snd

/-- The prescaler names by selector, column PSID of table PS; 10 to 15 name nothing (R67). -/
def prescalerNames : List Prescaler :=
  [.none, .div1, .div8, .div32, .div64, .div128, .div256, .div1024, .extFalling, .extRising]

/-- The prescaler a selector names on an instance (R67). -/
def psDecode (c : Config) (d : Dev) (psid : BitVec 4) : Option Prescaler :=
  match prescalerNames[psid.toNat]? with
  | none => none
  | some ps => if (psCode c d ps).isSome then some ps else none

/-- A value is of type RES on an instance: on an 8-bit one VAL[15:8] is zero (R78). -/
def fitsRes (d : Dev) (v : Half) : Bool := d.res == 16 || v.extractLsb' 8 8 == 0

/-- hasDynamicTop (R91). -/
def hasDynamicTop (w : WaveformMode) : Bool :=
  match w.top with
  | .fixed _ => false
  | .reg _ => true

/-- topReg, the register of the instance that holds a dynamic ceiling (R91). -/
def topReg (d : Dev) (w : WaveformMode) : Option Reg :=
  match w.top with
  | .fixed _ => none
  | .reg r => r.on d

/-! ### Channels -/

/-- The channel of a command that has one. -/
def channelOf : Instr → Option Channel
  | .config _ _ => none
  | .activate _ _ => none
  | .actch ch _ _ _ => some ch
  | .actpin ch => some ch
  | .updtop _ => none
  | .updcmp ch _ => some ch

/-- The bound check, exactly `ch >= CHAN` (R62, C1). -/
def outOfRange (ch : Channel) : Bool := decide (CHAN ≤ ch.index.toNat)

/-- The channel-table index of a channel that passes the bound check (R46, R62). -/
def slot (ch : Channel) : Option Slot :=
  if h : ch.index.toNat < CHAN then some ⟨ch.index.toNat, h⟩ else none

/-- The guard of the channel commands: it fails exactly when the channel is out of range
(R108, R109, R116). -/
def guardFails (i : Instr) : Bool :=
  match channelOf i with
  | none => false
  | some ch => outOfRange ch

/-! ### Contributions to registers -/

/-- wgmA: the low WGM_A_WIDTH = 2 mode bits, placed in control register A (R68). -/
def wgmA (c : DevConfig) (m : BitVec 6) : Byte := (m.extractLsb' 0 2).setWidth 8 <<< c.wgmALsb

/-- wgmB: the remaining mode bits, shifted into control register B (R69). -/
def wgmB (c : DevConfig) (m : BitVec 6) : Byte := (m.extractLsb' 2 4).setWidth 8 <<< c.wgmBShift

/-- csField of a clock-select code (R67), placed at CS_LSB. -/
def csField (c : DevConfig) (code : Byte) : Byte := code <<< c.csLsb

/-- The clock-select field of a value of control register B; zero means no clock (R25, R52). -/
def csOf (c : DevConfig) (ctrlB : Half) : Byte :=
  (ctrlB.extractLsb' c.csLsb c.csWidth).setWidth 8

/-- The CompareOutputMode a 2-bit code names on an instance: the inverse of COM_CODE (R63, R64).  With
a COM_CODE that is no bijection, no instance of the spec, a code without a name is read as Set
(notes/assumptions/10.md). -/
def comName (c : DevConfig) (code : BitVec 2) : ComMode :=
  if c.comCode.disconnected = code then .disconnected
  else if c.comCode.toggle = code then .toggle
  else if c.comCode.clear = code then .clear
  else .set

/-- comField (R70). -/
def comField (c : DevConfig) (i : Slot) (m : ComMode) : Byte :=
  (c.comCode.get m).setWidth 8 <<< c.comOffset.get i

/-- The COM field of a channel in a value of control register A (R24). -/
def comOf (c : DevConfig) (i : Slot) (ctrlA : Half) : BitVec 2 := ctrlA.extractLsb' (c.comOffset.get i) 2

/-- The port of a channel's pin (R30). -/
def pinPort (c : DevConfig) (i : Slot) : Port := (c.pin.get i).1

/-- pinMask (R72). -/
def pinMask (c : DevConfig) (i : Slot) : Byte := 1#8 <<< (c.pin.get i).2

/-! ### Legality -/

/-- Steps (3) and (4) of R81: the selectors of CONFIG, the width of VAL. -/
def operandRefusal (c : Config) (d : Dev) : Instr → Option Refusal
  | .config wmid psid =>
    if !c.catalogOk d then some .catalogOutsideSpec
    else if (wmDecode c d wmid).isNone then some .wmidNotInCatalog
    else if (psDecode c d psid).isNone then some .psidNotOnDevice
    else none
  | .activate _ val => if fitsRes d val then none else some .valTooWide
  | .actch _ _ _ val => if fitsRes d val then none else some .valTooWide
  | .actpin _ => none
  | .updtop val => if fitsRes d val then none else some .valTooWide
  | .updcmp _ val => if fitsRes d val then none else some .valTooWide

/-- CONFIG, the one command UNCONFIGURED does not refuse (R17). -/
def isConfig : Instr → Bool
  | .config _ _ => true
  | .activate _ _ => false
  | .actch _ _ _ _ => false
  | .actpin _ => false
  | .updtop _ => false
  | .updcmp _ _ => false

/-- Steps (2) to (4) of R81, in that order: why an instance refuses a command, if it does. -/
def legality (c : Config) (d : Dev) (phase : Phase) (i : Instr) : Option Refusal :=
  if phase = .unconfigured ∧ isConfig i = false then some .unconfigured
  else operandRefusal c d i

end Sys2Proof.Machine
end

