-- ==== Sys2Proof/Machine/Flags.lean ====
section
/-! DEFINITION. The block has no status flags and no condition codes (R22).  What it sets and clears
bit by bit are the enable bits of the interrupt-mask register (R27, R71). -/

namespace Sys2Proof.Machine

/-- toieMask, the overflow-interrupt enable (R71). -/
def toieMask (c : DevConfig) : Byte := 1#8 <<< c.toieBit

/-- ocieMask, a channel's compare-match-interrupt enable (R71). -/
def ocieMask (c : DevConfig) (i : Slot) : Byte := 1#8 <<< c.ocieBit.get i

/-- setBit: the masked bit becomes the flag, every other bit stays (R71). -/
def setBit (v mask : Byte) (f : Bool) : Byte := (v &&& ~~~mask) ||| (if f then mask else 0)

end Sys2Proof.Machine
end

