-- ==== Sys2Proof/Machine/Ops.lean ====
section
/-! DEFINITION. The shared operations: register access, the moves of the environment, the micro-steps
of the sequencer and the performing of a command.  The block raises no exception and takes no trap,
so there is no exception entry and no return from one to model (R119, R125, R126). -/

namespace Sys2Proof.Machine

/-! ### Access to the state -/

/-- The value of a register (R44); reading changes nothing (R37). -/
def State.reg (s : State) (r : Reg) : Half := Memory.readReg s.cfg s.mem r

/-- The state with every bit of a register written (R45). -/
def State.setReg (s : State) (r : Reg) (v : Half) : State :=
  { s with mem := Memory.writeReg s.cfg s.mem r v }

/-- The state with an entry added to the bus trace (R60). -/
def State.log (s : State) (e : BusEvent) : State := { s with trace := s.trace ++ [e] }

/-- The state with the registers of one instance changed (R39). -/
def State.setInst (s : State) (d : Dev) (x : Inst) : State := { s with inst := s.inst.set d x }

/-- The configuration of an instance. -/
def State.dev (s : State) (d : Dev) : DevConfig := s.cfg.dev.get d

/-! ### The environment -/

/-- The chip's reset: every register takes its reset value, a command in progress is cancelled
(R133, R134).  The words still to be presented, the coming moves and the trace are not the block's
and stay. -/
def State.resetNow (s : State) : State :=
  { State.resetWith s.cfg with
    port := s.port, target := s.target, agenda := s.agenda, trace := s.trace }

/-- The counter's move: while a clock is selected it may set COUNT to any RES-bit value; with no
clock it has no move (R52). -/
def counterMove (s : State) (d : Dev) (v : Half) : State :=
  if csOf (s.dev d) (s.reg (.ctrlB d)) = 0 then s
  else (s.setReg (.count d) v).log (.counter d (fitReg (.count d) v))

/-- An access of the handler at an address with a width in bytes: a full-width access of one register
is performed, any other is refused, which the trace records (R42, R48, U17,
notes/assumptions/12.md).  A refused access reads and writes nothing. -/
def handlerAccess (s : State) (a : Addr) (n : Nat) (access : Reg → State) : State :=
  match s.cfg.regAt a n with
  | some r => access r
  | none => s.log (.handlerRefused a n)

/-- A full-width read by the handler (R53). -/
def handlerRead (s : State) (r : Reg) : State := s.log (.handlerRead r (s.reg r))

/-- A full-width write by the handler (R53). -/
def handlerWrite (s : State) (v : Half) (r : Reg) : State :=
  (s.setReg r v).log (.handlerWrite r (fitReg r v))

/-- One move of the environment (R52, R53).  The handler has no move while `gie` = 0. -/
def envMove (s : State) : EnvMove → State
  | .tick d v => counterMove s d v
  | .busRead a n => if s.gie then handlerAccess s a n (handlerRead s) else s
  | .busWrite a n v => if s.gie then handlerAccess s a n (handlerWrite s v) else s
  | .setGie b => { s with gie := b }
  | .reset => s.resetNow

/-- An interleaving point: the environment makes the moves its agenda holds for it, in order
(R50). -/
def interleave (s : State) : State :=
  match s.agenda with
  | [] => s
  | p :: ps => p.foldl envMove { s with agenda := ps }

/-! ### Micro-steps -/

/-- What one micro-step of the sequencer does: one bus transaction, one engine-register update, or
nothing (R12, R20). -/
inductive MicroOp where
  /-- `CsrWrite(r, v)`. -/
  | write (r : Reg) (v : Half)
  /-- `t <- CsrRead(r)`. -/
  | load (r : Reg)
  /-- `CsrWrite(r, t | mask)`. -/
  | storeOr (r : Reg) (mask : Byte)
  /-- `CsrWrite(r, t & ~mask)`. -/
  | storeClear (r : Reg) (mask : Byte)
  /-- `CsrWrite(r, setBit(t, mask, f))`. -/
  | storeBit (r : Reg) (mask : Byte) (f : Bool)
  /-- A conditional micro-step that does not apply: no transaction (R20). -/
  | skip
  /-- The engine update of CONFIG (R102). -/
  | capture (wm : WaveformMode) (ps : Prescaler)
  /-- The engine update of ACTIVATE (R103, seq 10). -/
  | start
  /-- The engine update of ACTCH (R108, seq 5). -/
  | connect (i : Slot) (m : ComMode)
  deriving DecidableEq, Repr

/-- `CsrWrite(r, v)` by the sequencer (R45). -/
def busWrite (s : State) (r : Reg) (v : Half) : State := (s.setReg r v).log (.seqWrite r (fitReg r v))

/-- `t <- CsrRead(r)` by the sequencer of an instance; the targets are 8-bit registers (R21, R44). -/
def busLoad (s : State) (d : Dev) (r : Reg) : State :=
  (s.setInst d { s.inst.get d with t := (s.reg r).setWidth 8 }).log (.seqRead r (s.reg r))

/-- An 8-bit value on the bus. -/
def busByte (v : Byte) : Half := v.setWidth 16

/-- The engine after CONFIG (R102): the captured pair, channel records cleared. -/
def Inst.captured (x : Inst) (wm : WaveformMode) (ps : Prescaler) : Inst :=
  { x with
    wm := wm, ps := ps, com := ⟨.disconnected, .disconnected⟩, chActive := ⟨false, false⟩,
    phase := .uninitialized }

/-- The engine after ACTIVATE (R103): RUNNING, no channel active; the records stay (R107). -/
def Inst.started (x : Inst) : Inst := { x with phase := .running, chActive := ⟨false, false⟩ }

/-- The engine after ACTCH (R108): the mode recorded, the channel active. -/
def Inst.connected (x : Inst) (i : Slot) (m : ComMode) : Inst :=
  { x with com := x.com.set i m, chActive := x.chActive.set i true }

/-- One micro-step of an instance's sequencer. -/
def microStep (d : Dev) (s : State) : MicroOp → State
  | .write r v => busWrite s r v
  | .load r => busLoad s d r
  | .storeOr r mask => busWrite s r (busByte ((s.inst.get d).t ||| mask))
  | .storeClear r mask => busWrite s r (busByte ((s.inst.get d).t &&& ~~~mask))
  | .storeBit r mask f => busWrite s r (busByte (setBit (s.inst.get d).t mask f))
  | .skip => s
  | .capture wm ps => s.setInst d ((s.inst.get d).captured wm ps)
  | .start => s.setInst d (s.inst.get d).started
  | .connect i m => s.setInst d ((s.inst.get d).connected i m)

/-- The sequencer after a completed micro-step: the index grows by one; after the last micro-step
`busy` and `seq` return to 0 (R20). -/
def Inst.advanced (x : Inst) (last : Bool) : Inst :=
  if last then { x with busy := false, seq := 0 } else { x with seq := x.seq + 1 }

/-- One micro-step and the advance of the index. -/
def seqStep (d : Dev) (op : MicroOp) (last : Bool) (s : State) : State :=
  (microStep d s op).setInst d (((microStep d s op).inst.get d).advanced last)

/-- Perform the remaining micro-steps of an instance's command.  Before each of them the environment
may move (R50); if that includes a reset the command is over (R133). -/
def runScript (d : Dev) : List MicroOp → State → State
  | [], s => s
  | op :: ops, s =>
    if ((interleave s).inst.get d).busy then
      runScript d ops (seqStep d op ops.isEmpty (interleave s))
    else interleave s

/-! ### Commands -/

/-- Acceptance of a legal command: its word is latched, `busy` is 1, `seq` is 0 (R19, R81 (5)). -/
def State.accept (s : State) (i : Instr) : State :=
  s.setInst s.target { s.inst.get s.target with cmd := encode i, busy := true, seq := 0 }

/-- The end of a command with no micro-step, a silent no-op: the latch holds its word, nothing else
has changed (R20, R112). -/
def State.passOver (s : State) (i : Instr) : State :=
  s.setInst s.target { s.inst.get s.target with cmd := encode i, busy := false, seq := 0 }

/-- The three outcomes of a command (R9), and the model's stop in a state no run reaches. -/
inductive Disposition where
  | refused (r : Refusal)
  | silentNoop
  | stopped (f : Fault)
  | performed
  deriving DecidableEq, Repr

/-- What becomes of a command presented to the target instance: refused (R81), a silent no-op (R62),
or performed.  `hazard` is the command's stop in a state no run reaches. -/
def dispose (hazard : Option Fault) (i : Instr) (s : State) : Disposition :=
  match legality s.cfg s.target (s.inst.get s.target).phase i with
  | some r => .refused r
  | none =>
    if guardFails i then .silentNoop
    else match hazard with
      | some f => .stopped f
      | none => .performed

/-- A command presented to the target instance: dispose of it and, if it is to be performed, run its
micro-steps. -/
def perform (i : Instr) (hazard : Option Fault) (script : List MicroOp) (s : State) : Outcome :=
  match dispose hazard i s with
  | .refused r => .refused r
  | .silentNoop => .next (s.passOver i)
  | .stopped f => .fault f
  | .performed => .next (runScript s.target script (s.accept i))

end Sys2Proof.Machine
end

