-- ==== Sys2Proof/Machine/Channels.lean ====
section
/-! DEFINITION. ACTCH and UPDCMP (spec/42_channel.md). -/

namespace Sys2Proof.Machine

/-- The six micro-steps of ACTCH (R108). -/
def actchScript (ch : Channel) (com : BitVec 2) (ie : Bool) (val : Half) (d : Dev) (s : State) :
    List MicroOp :=
  match slot ch with
  | none => []
  | some i =>
    let c := s.dev d
    let m := comName c com
    [.load (.ctrlA d), .storeOr (.ctrlA d) (comField c i m),
     .load (.imask d), .storeBit (.imask d) (ocieMask c i) ie,
     .write (.compare d i) val,
     .connect i m]

/-- ACTCH (R108). -/
def execActch (ch : Channel) (com : BitVec 2) (ie : Bool) (val : Half) (s : State) : Outcome :=
  perform (.actch ch com ie val) none (actchScript ch com ie val s.target s) s

/-- The micro-step of UPDCMP (R109). -/
def updcmpScript (ch : Channel) (val : Half) (d : Dev) : List MicroOp :=
  match slot ch with
  | none => []
  | some i => [.write (.compare d i) val]

/-- UPDCMP (R109). -/
def execUpdcmp (ch : Channel) (val : Half) (s : State) : Outcome :=
  perform (.updcmp ch val) none (updcmpScript ch val s.target) s

end Sys2Proof.Machine
end

