-- ==== Sys2Proof/Machine/Setup.lean ====
section
/-! DEFINITION. CONFIG and ACTIVATE (spec/41_config_activate.md). -/

namespace Sys2Proof.Machine

/-- The micro-step of CONFIG (R102). -/
def configScript (wmid : BitVec 6) (psid : BitVec 4) (d : Dev) (s : State) : List MicroOp :=
  match wmDecode s.cfg d wmid, psDecode s.cfg d psid with
  | some wm, some ps => [.capture wm ps]
  | _, _ => []

/-- CONFIG (R102). -/
def execConfig (wmid : BitVec 6) (psid : BitVec 4) (s : State) : Outcome :=
  perform (.config wmid psid) none (configScript wmid psid s.target s) s

/-- The write of the dynamic ceiling, or the skipped micro-step (R103 seq 6, R114 seq 0). -/
def ceilingOp (d : Dev) (wm : WaveformMode) (val : Half) : MicroOp :=
  match topReg d wm with
  | some r => .write r val
  | none => .skip

/-- A dynamic ceiling in a register the instance lacks; no catalog of the spec has one (R94 (d)). -/
def ceilingHazard (d : Dev) (wm : WaveformMode) : Option Fault :=
  if hasDynamicTop wm && (topReg d wm).isNone then some .absentCeiling else none

/-- The four zero writes of ACTIVATE in ZERO_ORDER (R103, seq 0 to 3). -/
def zeroScript (c : DevConfig) (d : Dev) : List MicroOp :=
  c.zeroOrder.filterMap fun n => (n.on d).map fun r => .write r 0

/-- The clock-select code ACTIVATE writes (R67). -/
def clockCode (d : Dev) (s : State) : Byte := (psCode s.cfg d (s.inst.get d).ps).getD 0

/-- The eleven micro-steps of ACTIVATE (R103). -/
def activateScript (ie : Bool) (val : Half) (d : Dev) (s : State) : List MicroOp :=
  let c := s.dev d
  let wm := (s.inst.get d).wm
  zeroScript c d ++
    [.load (.imask d), .storeBit (.imask d) (toieMask c) ie,
     ceilingOp d wm val,
     .load (.ctrlA d), .storeOr (.ctrlA d) (wgmA c wm.mode),
     .write (.ctrlB d) (busByte (wgmB c wm.mode ||| csField c (clockCode d s))),
     .start]

/-- The stops of ACTIVATE, in states no run reaches. -/
def activateHazard (d : Dev) (s : State) : Option Fault :=
  if (psCode s.cfg d (s.inst.get d).ps).isNone then some .prescalerWithoutCode
  else ceilingHazard d (s.inst.get d).wm

/-- ACTIVATE (R103). -/
def execActivate (ie : Bool) (val : Half) (s : State) : Outcome :=
  perform (.activate ie val) (activateHazard s.target s) (activateScript ie val s.target s) s

end Sys2Proof.Machine
end

