-- ==== Sys2Proof/Machine/TopPin.lean ====
section
/-! DEFINITION. UPDTOP and ACTPIN (spec/43_top_and_pin.md). -/

namespace Sys2Proof.Machine

/-- The micro-step of UPDTOP: the ceiling write of ACTIVATE's step 3 (R114). -/
def updtopScript (val : Half) (d : Dev) (s : State) : List MicroOp :=
  [ceilingOp d (s.inst.get d).wm val]

/-- UPDTOP (R114).  It follows E.wm, not the bits CTRLA and CTRLB hold. -/
def execUpdtop (val : Half) (s : State) : Outcome :=
  perform (.updtop val) (ceilingHazard s.target (s.inst.get s.target).wm)
    (updtopScript val s.target s) s

/-- The four micro-steps of ACTPIN: the output bit is cleared before the direction is set
(R116, R117). -/
def actpinScript (ch : Channel) (d : Dev) (s : State) : List MicroOp :=
  match slot ch with
  | none => []
  | some i =>
    let p := pinPort (s.dev d) i
    let mask := pinMask (s.dev d) i
    [.load (.portOut p), .storeClear (.portOut p) mask,
     .load (.portDir p), .storeOr (.portDir p) mask]

/-- ACTPIN (R116). -/
def execActpin (ch : Channel) (s : State) : Outcome :=
  perform (.actpin ch) none (actpinScript ch s.target s) s

end Sys2Proof.Machine
end

