-- ==== Sys2Proof/Machine/Dispatch.lean ====
section
/-! DEFINITION. One arm for each command of the opcode table. -/

namespace Sys2Proof.Machine

def exec (i : Instr) (s : State) : Host.Outcome State Fault Refusal :=
  match i with
  | .config wmid psid => Sys2Proof.Machine.execConfig wmid psid s
  | .activate ie val => Sys2Proof.Machine.execActivate ie val s
  | .actch ch com ie val => Sys2Proof.Machine.execActch ch com ie val s
  | .actpin ch => Sys2Proof.Machine.execActpin ch s
  | .updtop val => Sys2Proof.Machine.execUpdtop val s
  | .updcmp ch val => Sys2Proof.Machine.execUpdcmp ch val s

end Sys2Proof.Machine
end

