-- ==== Sys2Proof/Machine/Sequencer.lean ====
section
/-! DEFINITION. The sequencer around the commands: the micro-steps of a latched command, the
continuation of a command in progress, and what the decoder's errors are refused as. -/

namespace Sys2Proof.Machine

/-- The micro-steps of a command on an instance. -/
def scriptOf (i : Instr) (d : Dev) (s : State) : List MicroOp :=
  match i with
  | .config wmid psid => configScript wmid psid d s
  | .activate ie val => activateScript ie val d s
  | .actch ch com ie val => actchScript ch com ie val d s
  | .actpin ch => actpinScript ch d s
  | .updtop val => updtopScript val d s
  | .updcmp ch val => updcmpScript ch val d

/-- The stop of a command in a state no run reaches. -/
def hazardOf (i : Instr) (d : Dev) (s : State) : Option Fault :=
  match i with
  | .config _ _ => none
  | .activate _ _ => activateHazard d s
  | .actch _ _ _ _ => none
  | .actpin _ => none
  | .updtop _ => ceilingHazard d (s.inst.get d).wm
  | .updcmp _ _ => none

/-- The instance whose command is in progress, if there is one (R19). -/
def busyDev (s : State) : Option Dev := Dev.all.find? fun d => (s.inst.get d).busy

/-- The micro-steps of the command in an instance's latch; a latch that spells no command, which no
accepted word leaves, has none (notes/assumptions/13.md). -/
def latchedScript (d : Dev) (s : State) : List MicroOp :=
  match decode (s.inst.get d).cmd with
  | .ok i => scriptOf i d s
  | .error _ => []

/-- The stop of the command in an instance's latch, in a state no run reaches. -/
def latchedHazard (d : Dev) (s : State) : Option Fault :=
  match decode (s.inst.get d).cmd with
  | .ok i => hazardOf i d s
  | .error _ => none

/-- The end of a command that has no micro-step left: `busy` and `seq` return to 0 (R20, R150). -/
def State.endCommand (s : State) (d : Dev) : State :=
  s.setInst d { s.inst.get d with busy := false, seq := 0 }

/-- Go on with the command in progress on an instance: the micro-steps of its latched word from
`seq` on (R19, R20).  With none left the command is over; so ends a latched command whose channel
guard fails (R81 (5), R112). -/
def resume (d : Dev) (s : State) : Outcome :=
  match latchedHazard d s with
  | some f => .fault f
  | none =>
    if (s.inst.get d).seq.toNat < (latchedScript d s).length then
      .next (runScript d ((latchedScript d s).drop (s.inst.get d).seq.toNat) s)
    else .next (s.endCommand d)

/-- A word that spells no command is refused by name (R76). -/
def refusalOf : DecodeError → Refusal
  | .reservedOpcode => .reservedOpcode
  | .mustBeZero => .mustBeZero

/-- The issuer presents a word to an instance: it becomes the target (R82). -/
def State.present (s : State) (d : Dev) (rest : List (Dev × Word)) : State :=
  { s with port := rest, target := d }

/-- A word taken from the port: decode it and execute the command (R81). -/
def takeWord (d : Dev) (w : Word) (rest : List (Dev × Word)) (s : State) : Outcome :=
  match decode w with
  | .ok i => exec i (s.present d rest)
  | .error e => .refused (refusalOf e)

/-- One step of the machine: go on with a command in progress (a word presented meanwhile waits,
R19); else take the next word from the port; else, with no word presented, the sequencer stays idle
(R135) and the environment may move. -/
def stepMachine (s : State) : Outcome :=
  match busyDev s with
  | some d => resume d s
  | none =>
    match s.port with
    | (d, w) :: rest => takeWord d w rest s
    | [] => .next (interleave s)

/-- The issuer presents one more word, before all others, to the target instance. -/
def pushWord (s : State) (w : Word) : State := { s with port := (s.target, w) :: s.port }

/-- What the issuer sees next: after a refused word the state is as before, and the issuer goes on
with the word after it (R76, R150; notes/assumptions/3.md).  A fault leaves the machine where it is. -/
def proceed (s : State) : State :=
  match stepMachine s with
  | .next s' => s'
  | .refused _ => { s with port := s.port.tail }
  | .fault _ => s

/-- A run of the issuer: `n` steps, going on after refusals (R150). -/
def session : Nat → State → State
  | 0, s => s
  | n + 1, s => session n (proceed s)

end Sys2Proof.Machine
end

