-- ==== Sys2Proof/Machine/Step.lean ====
section
/-! DEFINITION. One step of the machine. -/

namespace Sys2Proof.Machine

/-- One step: a whole command word of the port, the rest of a command in progress, or an idle
interleaving point. -/
def step (s : State) : Host.Outcome State Fault Refusal := stepMachine s

/-- The state in which the next word presented is `w`: the issuer presents it to the target
instance (notes/assumptions/4.md). -/
def State.withFetchWord (s : State) (_nbits w : Nat) : State := pushWord s (BitVec.ofNat 32 w)

end Sys2Proof.Machine
end

