-- ==== Sys2Proof/Safety.lean ====
section
/-! DEFINITION. The terms the statements are made in: premises on the environment, the invariant of
the machine, what a command leaves untouched, and the bus transactions the spec lists for each
command. -/

namespace Sys2Proof.Machine

/-! ### Premises on the environment -/

/-- The environment makes no move: every coming interleaving point is empty (R60, the
interference-free execution). -/
def State.quiet (s : State) : Bool := s.agenda.all List.isEmpty

/-- A move of the counter (R52). -/
def isTick : EnvMove → Bool
  | .tick _ _ => true
  | .busRead _ _ => false
  | .busWrite _ _ _ => false
  | .setGie _ => false
  | .reset => false

/-- A move of the handler (R53). -/
def isHandler : EnvMove → Bool
  | .tick _ _ => false
  | .busRead _ _ => true
  | .busWrite _ _ _ => true
  | .setGie _ => false
  | .reset => false

/-- The chip's reset (R133). -/
def isReset : EnvMove → Bool
  | .tick _ _ => false
  | .busRead _ _ => false
  | .busWrite _ _ _ => false
  | .setGie _ => false
  | .reset => true

/-- No reset is to come. -/
def State.noReset (s : State) : Bool := s.agenda.all fun p => p.all fun m => !isReset m

/-- Only the counters move. -/
def State.ticksOnly (s : State) : Bool := s.agenda.all fun p => p.all isTick

/-- The critical section: `gie` is 0 and stays so, and no reset comes (R54, R139). -/
def State.criticalSection (s : State) : Bool :=
  !s.gie && s.agenda.all fun p => p.all fun m => isTick m || isHandler m

/-- The same state with every move of the handler taken out of the agenda. -/
def State.withoutHandler (s : State) : State :=
  { s with agenda := s.agenda.map fun p => p.filter fun m => !isHandler m }

/-! ### The invariant -/

/-- The sequencer of an instance is idle (R19, R20). -/
def Inst.idle (x : Inst) : Bool := !x.busy && x.seq == 0

/-- Every sequencer is idle, as between two commands. -/
def State.allIdle (s : State) : Bool := Dev.all.all fun d => (s.inst.get d).idle

/-- Once an instance is configured, its catalog meets R94, E.wm is a row of it (R90) and E.ps is in
the instance's enumeration (R15). -/
def engineOk (c : Config) (d : Dev) (x : Inst) : Bool :=
  x.phase == .unconfigured ||
    (c.catalogOk d && ((c.dev.get d).catalog.map CatalogRow.wm).contains x.wm &&
      (psCode c d x.ps).isSome)

/-- What every step keeps: the register map's storage is canonical, the sequencers are idle, and a
configured engine holds a catalog row and a prescaler of its instance. -/
def State.Inv (s : State) : Bool :=
  s.mem.wf && s.allIdle && Dev.all.all fun d => engineOk s.cfg d (s.inst.get d)

/-! ### Frames -/

/-- What a command of the target instance leaves as it was: the configuration, the inputs, the other
instances, and every byte of the register map outside the registers it writes. -/
structure Untouched (s t : State) (written : List Reg) : Prop where
  cfg : t.cfg = s.cfg
  gie : t.gie = s.gie
  port : t.port = s.port
  target : t.target = s.target
  others : ∀ d, d ≠ s.target → t.inst.get d = s.inst.get d
  bytes : ∀ a, (∀ r ∈ written, occupies s.cfg r a = false) → t.mem.read a = s.mem.read a

/-! ### Bus transactions -/

/-- A transaction of the sequencer, without its value. -/
inductive Access where
  | read (r : Reg)
  | write (r : Reg)
  deriving DecidableEq, Repr

/-- The sequencer's transaction of a trace entry, if it is one. -/
def seqAccess : BusEvent → Option Access
  | .seqRead r _ => some (.read r)
  | .seqWrite r _ => some (.write r)
  | .handlerRead _ _ => none
  | .handlerWrite _ _ => none
  | .handlerRefused _ _ => none
  | .counter _ _ => none

/-- The sequencer's transactions of a trace, in order. -/
def seqAccesses (tr : List BusEvent) : List Access := tr.filterMap seqAccess

/-- The write of a dynamic ceiling, if the captured mode has one. -/
def ceilingAccess (s : State) (d : Dev) : List Access :=
  match topReg d (s.inst.get d).wm with
  | some r => [.write r]
  | none => []

/-- Table T of R59: the transactions of a command, from the command and E.wm alone. -/
def tableT (s : State) (d : Dev) : Instr → List Access
  | .config _ _ => []
  | .activate _ _ =>
    ((s.dev d).zeroOrder.filterMap (Csr.on d)).map Access.write ++
      [.read (.imask d), .write (.imask d)] ++ ceilingAccess s d ++
      [.read (.ctrlA d), .write (.ctrlA d), .write (.ctrlB d)]
  | .actch ch _ _ _ =>
    match slot ch with
    | some i =>
      [.read (.ctrlA d), .write (.ctrlA d), .read (.imask d), .write (.imask d),
        .write (.compare d i)]
    | none => []
  | .actpin ch =>
    match slot ch with
    | some i =>
      [.read (.portOut (pinPort (s.dev d) i)), .write (.portOut (pinPort (s.dev d) i)),
        .read (.portDir (pinPort (s.dev d) i)), .write (.portDir (pinPort (s.dev d) i))]
    | none => []
  | .updtop _ => ceilingAccess s d
  | .updcmp ch _ =>
    match slot ch with
    | some i => [.write (.compare d i)]
    | none => []

/-- The transactions of one micro-step (R44, R45). -/
def opAccess : MicroOp → List Access
  | .write r _ => [.write r]
  | .load r => [.read r]
  | .storeOr r _ => [.write r]
  | .storeClear r _ => [.write r]
  | .storeBit r _ _ => [.write r]
  | .skip => []
  | .capture _ _ => []
  | .start => []
  | .connect _ _ => []

/-- The register a micro-step reads, if it reads one. -/
def MicroOp.loads : MicroOp → List Reg
  | .write _ _ => []
  | .load r => [r]
  | .storeOr _ _ => []
  | .storeClear _ _ => []
  | .storeBit _ _ _ => []
  | .skip => []
  | .capture _ _ => []
  | .start => []
  | .connect _ _ => []

/-- The register a micro-step writes, if it writes one. -/
def MicroOp.writes : MicroOp → List Reg
  | .write r _ => [r]
  | .load _ => []
  | .storeOr r _ => [r]
  | .storeClear r _ => [r]
  | .storeBit r _ _ => [r]
  | .skip => []
  | .capture _ _ => []
  | .start => []
  | .connect _ _ => []

/-- The registers a read-modify-write may read: CTRLA, IMASK and the port registers (R44). -/
def isReadByBlock : Reg → Bool
  | .ctrlA _ => true
  | .imask _ => true
  | .portOut _ => true
  | .portDir _ => true
  | .ctrlB _ => false
  | .count _ => false
  | .compare _ _ => false
  | .ceil => false

/-- The instance whose CSR file a register belongs to; the port registers are shared (R39). -/
def ownerOf : Reg → Option Dev
  | .ctrlA d => some d
  | .ctrlB d => some d
  | .count d => some d
  | .imask d => some d
  | .compare d _ => some d
  | .ceil => some .d1
  | .portOut _ => none
  | .portDir _ => none

/-- ACTIVATE, the one command that clears control bits (R118). -/
def isActivate : Instr → Bool
  | .config _ _ => false
  | .activate _ _ => true
  | .actch _ _ _ _ => false
  | .actpin _ => false
  | .updtop _ => false
  | .updcmp _ _ => false

/-- ACTPIN, the one command that writes port registers (R30). -/
def isActpin : Instr → Bool
  | .config _ _ => false
  | .activate _ _ => false
  | .actch _ _ _ _ => false
  | .actpin _ => true
  | .updtop _ => false
  | .updcmp _ _ => false

end Sys2Proof.Machine
end

