-- ==== Sys2Proof/Certificates/Slice0/Obligations.lean ====
section
/-! DEFINITION. The statements for the provers.  Where a statement's premise is `s.quiet`, the
environment makes no move while the command runs; every other statement holds for whatever the
counter, the handler and the reset do within its premises. -/

open Sys2Proof Sys2Proof.Machine

/-! ### Encoding -/

/-- R85: decoding the word of R84 gives back the command, and re-encoding the command of a word
that decodes gives back the word. -/
def Obligations.DecodeEncodeRoundTrip : Prop :=
  (∀ i : Instr, decode (encode i) = .ok i) ∧
    ∀ (w : Word) (i : Instr), decode w = .ok i → encode i = w

/-- No word matches two rows of the opcode table (R76). -/
def Obligations.OpcodeRowsDoNotOverlap : Prop :=
  ∀ (w : Word) (r r' : OpcodeRow), r ∈ opcodeTable → r' ∈ opcodeTable →
    r.covers w = true → r'.covers w = true → r = r'

/-- R77: the bits that must be zero are zero in every word that decodes. -/
def Obligations.MustBeZeroBitsAreZero : Prop :=
  ∀ (w : Word) (i : Instr), decode w = .ok i →
    w.extractLsb' 16 7 = 0 ∧
    match i with
    | .config _ _ => w.extractLsb' 14 14 = 0 ∧ w.extractLsb' 4 4 = 0
    | .activate _ _ => w.extractLsb' 24 4 = 0
    | .actch _ _ _ _ => True
    | .actpin _ => w.extractLsb' 24 2 = 0 ∧ w.getLsbD 23 = false ∧ w.extractLsb' 0 16 = 0
    | .updtop _ => w.extractLsb' 24 4 = 0 ∧ w.getLsbD 23 = false
    | .updcmp _ _ => w.extractLsb' 24 2 = 0 ∧ w.getLsbD 23 = false

/-- A word with a reserved opcode, 0x0 or 0x7 to 0xF, is refused by name when an idle machine takes
it (R76, R80). -/
def Obligations.ReservedOpcodesAreRefused : Prop :=
  ∀ (s : State) (d : Dev) (w : Word) (rest : List (Dev × Word)),
    s.allIdle = true → s.port = (d, w) :: rest →
    (w.extractLsb' 28 4 = 0 ∨ 7 ≤ (w.extractLsb' 28 4).toNat) →
    step s = .refused .reservedOpcode

/-- A word with an allocated opcode and a must-be-zero bit that is one is refused by name when an idle
machine takes it, on every instance and in every phase (R76, R77, R81 (1), U9). -/
def Obligations.MustBeZeroWordsAreRefused : Prop :=
  ∀ (s : State) (d : Dev) (w : Word) (rest : List (Dev × Word)),
    s.allIdle = true → s.port = (d, w) :: rest →
    ((w.extractLsb' 28 4 = 1 ∧ (w.extractLsb' 14 14 ≠ 0 ∨ w.extractLsb' 4 4 ≠ 0)) ∨
      (w.extractLsb' 28 4 = 2 ∧ (w.extractLsb' 24 4 ≠ 0 ∨ w.extractLsb' 16 7 ≠ 0)) ∨
      (w.extractLsb' 28 4 = 3 ∧ w.extractLsb' 16 7 ≠ 0) ∨
      (w.extractLsb' 28 4 = 4 ∧ (w.extractLsb' 16 10 ≠ 0 ∨ w.extractLsb' 0 16 ≠ 0)) ∨
      (w.extractLsb' 28 4 = 5 ∧ w.extractLsb' 16 12 ≠ 0) ∨
      (w.extractLsb' 28 4 = 6 ∧ w.extractLsb' 16 10 ≠ 0)) →
    step s = .refused .mustBeZero

/-- Words of the spec's test vectors V1, read as the commands they stand for. -/
def Obligations.WordsOfV1Decode : Prop :=
  decode 0x10000704 = .ok (.config 7 4) ∧ decode 0x2080FFFF = .ok (.activate true 0xFFFF) ∧
  decode 0x378003E8 = .ok (.actch .b 3 true 1000) ∧ decode 0x44000000 = .ok (.actpin .b) ∧
  decode 0x500001F4 = .ok (.updtop 500) ∧ decode 0x640001F4 = .ok (.updcmp .b 500)

/-! ### Taking a command -/

/-- A step of an idle machine runs the command the word at the head of the port decodes to, on the
instance it was presented to. -/
def Obligations.StepRunsDecodedWord : Prop :=
  ∀ (s : State) (d : Dev) (w : Word) (rest : List (Dev × Word)) (i : Instr),
    s.allIdle = true → s.port = (d, w) :: rest → decode w = .ok i →
    step s = exec i { s with port := rest, target := d }

/-- A word placed for the next step is run by it, on the target instance: the model's convention
(notes/assumptions/4.md). -/
def Obligations.FetchWordRunsIt : Prop :=
  ∀ (s : State) (n w : Nat) (i : Instr),
    s.allIdle = true → decode (BitVec.ofNat 32 w) = .ok i → step (s.withFetchWord n w) = exec i s

/-- R19: a word presented while a command is in progress is not taken and stays in the port.  R19
speaks of the instance the word is presented to; that a word for another instance waits too is read
from R132, one issuer that waits for each command (DEDUCED, notes/assumptions/16.md).  That the port
also stays when a reset falls into the step is the model's choice (notes/assumptions/15.md). -/
def Obligations.WordWaitsWhileBusy : Prop :=
  ∀ (s t : State) (d : Dev), (s.inst.get d).busy = true → step s = .next t → t.port = s.port

/-- A command left off before micro-step `k` and taken up again by `step` ends in the state the
micro-steps from `k` on give (R20); that a step runs all of them is the model's choice
(notes/assumptions/1.md, 16.md). -/
def Obligations.StepResumesLatchedCommand : Prop :=
  ∀ (s : State) (d : Dev) (i : Instr),
    (∀ d', (s.inst.get d').busy = true ↔ d' = d) →
    (s.inst.get d).cmd = encode i → hazardOf i d s = none →
    (s.inst.get d).seq.toNat < (scriptOf i d s).length →
    step s = .next (runScript d ((scriptOf i d s).drop (s.inst.get d).seq.toNat) s)

/-- A latched command with no micro-step left is over at the next step: `busy` and `seq` return to 0
and nothing else changes.  So ends a latched channel command whose guard fails (R81 (5), R112); that a
latch whose index is past its last micro-step, which no run reaches, ends so too is the model's choice
(notes/assumptions/13.md). -/
def Obligations.LatchedCommandWithNoMicroStepEnds : Prop :=
  ∀ (s : State) (d : Dev) (i : Instr),
    (∀ d', (s.inst.get d').busy = true ↔ d' = d) → (s.inst.get d).cmd = encode i →
    hazardOf i d s = none →
    (guardFails i = true ∨ (scriptOf i d s).length ≤ (s.inst.get d).seq.toNat) →
    step s = .next
      { s with inst := s.inst.set d { s.inst.get d with busy := false, seq := 0 } }

/-- R135: after reset the sequencer is idle and waits for a command word; that a step with no word
presented answers the state itself is the model's choice (notes/assumptions/20.md). -/
def Obligations.ResetMachineWaits : Prop :=
  step State.reset = .next State.reset

/-! ### Legality -/

/-- R17 with D9: in UNCONFIGURED every command but CONFIG is refused, whatever its operands; the
refusal comes before the channel guard. -/
def Obligations.UnconfiguredRefusesOtherCommands : Prop :=
  ∀ (s : State) (i : Instr), (s.inst.get s.target).phase = .unconfigured → isConfig i = false →
    exec i s = .refused .unconfigured

/-- R78: on D0 and D2 a command whose VAL[15:8] is not zero is refused; on D1 no VAL is. -/
def Obligations.WideValuesAreRefused : Prop :=
  ∀ (s : State) (i : Instr) (val : Half),
    ((∃ ie, i = .activate ie val) ∨ (∃ ch com ie, i = .actch ch com ie val) ∨ i = .updtop val ∨
      ∃ ch, i = .updcmp ch val) →
    (s.inst.get s.target).phase ≠ .unconfigured →
    (exec i s = .refused .valTooWide ↔ s.target ≠ .d1 ∧ val.extractLsb' 8 8 ≠ 0)

/-- R120: a command is refused exactly when its operands are not well-formed for the target instance
or the instance is UNCONFIGURED and the command is not CONFIG; which refusal it is follows the order
of R81.  Well-formedness of a CONFIG includes that the catalog meets R94: that a CONFIG on any other
catalog is refused is the model's choice (R94, U18, notes/assumptions/17.md). -/
def Obligations.RefusedExactlyWhenIllegal : Prop :=
  ∀ (s : State) (i : Instr),
    ((∃ r, exec i s = .refused r) ↔
      ((s.inst.get s.target).phase = .unconfigured ∧ isConfig i = false) ∨
        i.wf s.cfg s.target = false) ∧
    (∀ r, exec i s = .refused r →
      if (s.inst.get s.target).phase = .unconfigured ∧ isConfig i = false then r = .unconfigured
      else operandRefusal s.cfg s.target i = some r)

/-- R79: a CONFIG whose WMID is not in its instance's catalog, or whose PSID names nothing there,
is refused. -/
def Obligations.UnknownSelectorsAreRefused : Prop :=
  ∀ (s : State) (wmid : BitVec 6) (psid : BitVec 4), s.cfg.catalogOk s.target = true →
    (wmDecode s.cfg s.target wmid = none → exec (.config wmid psid) s = .refused .wmidNotInCatalog) ∧
    (wmDecode s.cfg s.target wmid ≠ none → psDecode s.cfg s.target psid = none →
      exec (.config wmid psid) s = .refused .psidNotOnDevice)

/-- R99, R67 with the default tables, PRESUMED (notes/assumptions/9.md): the selectors that name
nothing, device by device. -/
def Obligations.DefaultSelectorsThatNameNothing : Prop :=
  (∀ w : BitVec 6, (wmDecode Config.default .d0 w = none ↔ w = 4 ∨ w = 6 ∨ 8 ≤ w.toNat) ∧
    (wmDecode Config.default .d1 w = none ↔ w = 13 ∨ 16 ≤ w.toNat) ∧
    (wmDecode Config.default .d2 w = none ↔ w = 4 ∨ w = 6 ∨ 8 ≤ w.toNat)) ∧
  ∀ p : BitVec 4, (psDecode Config.default .d0 p = none ↔ p = 3 ∨ p = 5 ∨ 10 ≤ p.toNat) ∧
    (psDecode Config.default .d1 p = none ↔ p = 3 ∨ p = 5 ∨ 10 ≤ p.toNat) ∧
    (psDecode Config.default .d2 p = none ↔ 8 ≤ p.toNat)

/-! ### The commands -/

/-- R102: CONFIG captures mode and prescaler, clears the channel records, makes the phase
UNINITIALIZED in any phase, and has no effect on hardware. -/
def Obligations.ConfigCapturesAndTouchesNoHardware : Prop :=
  ∀ (s : State) (wmid : BitVec 6) (psid : BitVec 4) (wm : WaveformMode) (ps : Prescaler),
    s.quiet = true → s.cfg.catalogOk s.target = true →
    wmDecode s.cfg s.target wmid = some wm → psDecode s.cfg s.target psid = some ps →
    exec (.config wmid psid) s = .next
      { s with
        agenda := s.agenda.tail
        inst := s.inst.set s.target
          { s.inst.get s.target with
            phase := .uninitialized, wm := wm, ps := ps
            com := ⟨.disconnected, .disconnected⟩, chActive := ⟨false, false⟩
            busy := false, cmd := encode (.config wmid psid), seq := 0 } }

/-- R104: the end state of ACTIVATE, whatever the CSR file held before, for every ZERO_ORDER and
every CSR_RESET; and its frame. -/
def Obligations.ActivateEndState : Prop :=
  ∀ (s : State) (ie : Bool) (val : Half) (code : Byte),
    s.cfg.wf = true → s.quiet = true → (s.inst.get s.target).phase ≠ .unconfigured →
    (Instr.activate ie val).wf s.cfg s.target = true →
    psCode s.cfg s.target (s.inst.get s.target).ps = some code →
    s.target.topOk (s.inst.get s.target).wm.top = true →
    ∃ t, exec (.activate ie val) s = .next t ∧
      t.reg (.ctrlA s.target) = busByte (wgmA (s.dev s.target) (s.inst.get s.target).wm.mode) ∧
      t.reg (.ctrlB s.target) = busByte (wgmB (s.dev s.target) (s.inst.get s.target).wm.mode |||
        csField (s.dev s.target) code) ∧
      t.reg (.imask s.target) = busByte (if ie then toieMask (s.dev s.target) else 0) ∧
      t.reg (.count s.target) = 0 ∧
      (∀ r, topReg s.target (s.inst.get s.target).wm = some r → t.reg r = val) ∧
      t.inst.get s.target =
        { s.inst.get s.target with
          phase := .running, chActive := ⟨false, false⟩, busy := false
          cmd := encode (.activate ie val), seq := 0, t := 0 } ∧
      Untouched s t ([.ctrlA s.target, .ctrlB s.target, .count s.target, .imask s.target] ++
        (topReg s.target (s.inst.get s.target).wm).toList)

/-- R106: after CONFIG with a prescaler whose code is 0 (None), ACTIVATE runs to its end and the
clock-select field of CTRLB is 0: the counter does not start. -/
def Obligations.ActivateWithoutClockDoesNotStart : Prop :=
  ∀ (s : State) (ie : Bool) (val : Half),
    s.cfg.wf = true → s.quiet = true → (s.inst.get s.target).phase ≠ .unconfigured →
    (Instr.activate ie val).wf s.cfg s.target = true →
    psCode s.cfg s.target (s.inst.get s.target).ps = some 0 →
    s.target.topOk (s.inst.get s.target).wm.top = true →
    s.target.modeOk (s.inst.get s.target).wm.mode = true →
    ∃ t, exec (.activate ie val) s = .next t ∧
      t.reg (.ctrlB s.target) = busByte (wgmB (s.dev s.target) (s.inst.get s.target).wm.mode) ∧
      csOf (s.dev s.target) (t.reg (.ctrlB s.target)) = 0 ∧
      (t.inst.get s.target).phase = .running ∧
      ∀ v, counterMove t s.target v = t

/-- R105: while the counters tick as they may and nothing else moves, ACTIVATE with the default
ZERO_ORDER ends in the same control, mask and ceiling registers, and COUNT is 0 at its end if no
tick falls on the interleaving point after the CTRLB write. -/
def Obligations.ActivateUnderCounterTicks : Prop :=
  ∀ (s : State) (ie : Bool) (val : Half) (code : Byte),
    s.cfg.wf = true → s.ticksOnly = true →
    (s.dev s.target).zeroOrder = [.ctrlA, .ctrlB, .count, .imask] →
    (s.inst.get s.target).phase ≠ .unconfigured →
    (Instr.activate ie val).wf s.cfg s.target = true →
    psCode s.cfg s.target (s.inst.get s.target).ps = some code →
    s.target.topOk (s.inst.get s.target).wm.top = true →
    ∃ t, exec (.activate ie val) s = .next t ∧
      t.reg (.ctrlA s.target) = busByte (wgmA (s.dev s.target) (s.inst.get s.target).wm.mode) ∧
      t.reg (.ctrlB s.target) = busByte (wgmB (s.dev s.target) (s.inst.get s.target).wm.mode |||
        csField (s.dev s.target) code) ∧
      t.reg (.imask s.target) = busByte (if ie then toieMask (s.dev s.target) else 0) ∧
      (∀ r, topReg s.target (s.inst.get s.target).wm = some r → t.reg r = val) ∧
      (s.agenda.getD 10 [] = [] → t.reg (.count s.target) = 0)

/-- R107: a second ACTIVATE with the same mode, prescaler, VAL and IE ends in the same register map,
and resets COUNT to 0 again. -/
def Obligations.RepeatedActivateEndsAlike : Prop :=
  ∀ (s t u : State) (ie : Bool) (val : Half),
    s.cfg.wf = true → s.quiet = true → (s.inst.get s.target).phase ≠ .unconfigured →
    s.target.topOk (s.inst.get s.target).wm.top = true →
    exec (.activate ie val) s = .next t → exec (.activate ie val) t = .next u →
    (∀ a, u.mem.read a = t.mem.read a) ∧ u.reg (.count s.target) = 0 ∧ u.inst = t.inst

/-- R103, R120 (b): the TOP value ACTIVATE and UPDTOP are given in a fixed-ceiling mode is discarded:
two values leave the same state, but for the latched word. -/
def Obligations.FixedCeilingDiscardsTop : Prop :=
  ∀ (s t t' : State) (ie : Bool) (v v' : Half),
    hasDynamicTop (s.inst.get s.target).wm = false →
    ((exec (.activate ie v) s = .next t ∧ exec (.activate ie v') s = .next t') ∨
      (exec (.updtop v) s = .next t ∧ exec (.updtop v') s = .next t')) →
    s.quiet = true →
    t.mem = t'.mem ∧ t.trace = t'.trace ∧
      { t.inst.get s.target with cmd := 0 } = { t'.inst.get s.target with cmd := 0 }

/-- R108: ACTCH on a valid channel, its transactions, its frame. -/
def Obligations.ActchConnectsChannel : Prop :=
  ∀ (s : State) (ch : Channel) (com : BitVec 2) (ie : Bool) (val : Half) (i : Slot) (a m : Byte),
    s.cfg.wf = true → s.quiet = true → (s.inst.get s.target).phase ≠ .unconfigured →
    (Instr.actch ch com ie val).wf s.cfg s.target = true → slot ch = some i →
    s.reg (.ctrlA s.target) = busByte a → s.reg (.imask s.target) = busByte m →
    ∃ t, exec (.actch ch com ie val) s = .next t ∧
      t.reg (.ctrlA s.target) = busByte (a ||| comField (s.dev s.target) i (comName (s.dev s.target) com)) ∧
      t.reg (.imask s.target) = busByte (setBit m (ocieMask (s.dev s.target) i) ie) ∧
      t.reg (.compare s.target i) = val ∧
      t.inst.get s.target =
        { s.inst.get s.target with
          com := (s.inst.get s.target).com.set i (comName (s.dev s.target) com)
          chActive := (s.inst.get s.target).chActive.set i true
          busy := false, cmd := encode (.actch ch com ie val), seq := 0, t := m } ∧
      t.trace = s.trace ++
        [.seqRead (.ctrlA s.target) (busByte a),
         .seqWrite (.ctrlA s.target) (busByte (a ||| comField (s.dev s.target) i (comName (s.dev s.target) com))),
         .seqRead (.imask s.target) (busByte m),
         .seqWrite (.imask s.target) (busByte (setBit m (ocieMask (s.dev s.target) i) ie)),
         .seqWrite (.compare s.target i) val] ∧
      Untouched s t [.ctrlA s.target, .imask s.target, .compare s.target i]

/-- R111: after ACTCH the channel's COM field is the bitwise OR of its old content and the new code,
its enable bit equals IE, its compare register equals the value, and the engine records the mode the
code names. -/
def Obligations.ActchAccumulatesComField : Prop :=
  ∀ (s : State) (ch : Channel) (com : BitVec 2) (ie : Bool) (val : Half) (i : Slot),
    s.cfg.wf = true → s.quiet = true → (s.inst.get s.target).phase ≠ .unconfigured →
    (Instr.actch ch com ie val).wf s.cfg s.target = true → slot ch = some i →
    ∃ t, exec (.actch ch com ie val) s = .next t ∧
      comOf (s.dev s.target) i (t.reg (.ctrlA s.target)) =
        comOf (s.dev s.target) i (s.reg (.ctrlA s.target)) ||| com ∧
      (t.reg (.imask s.target)).getLsbD ((s.dev s.target).ocieBit.get i) = ie ∧
      t.reg (.compare s.target i) = val ∧
      (t.inst.get s.target).com.get i = comName (s.dev s.target) com ∧
      (s.dev s.target).comCode.get (comName (s.dev s.target) com) = com

/-- R63, R64, for every configuration of the spec: each CompareOutputMode is named by its own code, and
each of the four 2-bit codes names one mode, so none is reserved. -/
def Obligations.EveryModeCodeNamesOneMode : Prop :=
  ∀ (c : Config) (d : Dev), c.wf = true →
    (∀ m : ComMode, comName (c.dev.get d) ((c.dev.get d).comCode.get m) = m) ∧
      ∀ code : BitVec 2, (c.dev.get d).comCode.get (comName (c.dev.get d) code) = code

/-- R110: ACTCH of two different valid channels, in either order, ends in the same registers and
engine records; so does UPDCMP. -/
def Obligations.ChannelCommandsCommute : Prop :=
  ∀ (s t u t' u' : State) (p q : Channel) (cp cq : BitVec 2) (ip iq : Bool) (vp vq : Half),
    s.cfg.wf = true → s.quiet = true → p ≠ q → outOfRange p = false → outOfRange q = false →
    ((exec (.actch p cp ip vp) s = .next t ∧ exec (.actch q cq iq vq) t = .next u ∧
        exec (.actch q cq iq vq) s = .next t' ∧ exec (.actch p cp ip vp) t' = .next u') ∨
      (exec (.updcmp p vp) s = .next t ∧ exec (.updcmp q vq) t = .next u ∧
        exec (.updcmp q vq) s = .next t' ∧ exec (.updcmp p vp) t' = .next u')) →
    (∀ x, u.mem.read x = u'.mem.read x) ∧
      (u.inst.get s.target).com = (u'.inst.get s.target).com ∧
      (u.inst.get s.target).chActive = (u'.inst.get s.target).chActive

/-- R112 for ACTCH and UPDCMP, R116 for ACTPIN: with a channel index of CHAN or more they are silent
no-ops: whatever the environment would do, nothing changes but the command latch.  That the latch
takes the word is read from R81 (5) (DEDUCED, notes/assumptions/19.md). -/
def Obligations.OutOfRangeChannelIsSilentNoop : Prop :=
  ∀ (s : State) (i : Instr) (ch : Channel),
    ((∃ com ie val, i = .actch ch com ie val) ∨ (∃ val, i = .updcmp ch val) ∨ i = .actpin ch) →
    CHAN ≤ ch.index.toNat → (s.inst.get s.target).phase ≠ .unconfigured →
    i.wf s.cfg s.target = true → s.allIdle = true →
    exec i s = .next
      { s with inst := s.inst.set s.target { s.inst.get s.target with cmd := encode i } }

/-- R109: UPDCMP on a valid channel writes the channel's compare register, in one transaction, and
changes nothing else. -/
def Obligations.UpdcmpWritesCompare : Prop :=
  ∀ (s : State) (ch : Channel) (val : Half) (i : Slot),
    s.cfg.wf = true → s.quiet = true → (s.inst.get s.target).phase ≠ .unconfigured →
    (Instr.updcmp ch val).wf s.cfg s.target = true → slot ch = some i →
    ∃ t, exec (.updcmp ch val) s = .next t ∧
      t.reg (.compare s.target i) = val ∧
      t.inst.get s.target =
        { s.inst.get s.target with busy := false, cmd := encode (.updcmp ch val), seq := 0 } ∧
      t.trace = s.trace ++ [.seqWrite (.compare s.target i) val] ∧
      Untouched s t [.compare s.target i]

/-- R115: with a fixed ceiling UPDTOP changes no register and issues no transaction; with a ceiling
in a register it writes exactly the value there, in one transaction, and nothing else; twice is as
once.  The latch takes the word in both cases (R19, R81 (5), notes/assumptions/22.md). -/
def Obligations.UpdtopLaws : Prop :=
  ∀ (s : State) (val : Half),
    s.cfg.wf = true → s.quiet = true → (s.inst.get s.target).phase ≠ .unconfigured →
    (Instr.updtop val).wf s.cfg s.target = true →
    s.target.topOk (s.inst.get s.target).wm.top = true →
    ∃ t u, exec (.updtop val) s = .next t ∧ exec (.updtop val) t = .next u ∧
      t.inst.get s.target =
        { s.inst.get s.target with busy := false, cmd := encode (.updtop val), seq := 0 } ∧
      (hasDynamicTop (s.inst.get s.target).wm = false →
        t.trace = s.trace ∧ t.mem = s.mem ∧ Untouched s t []) ∧
      (hasDynamicTop (s.inst.get s.target).wm = true →
        ∃ r, topReg s.target (s.inst.get s.target).wm = some r ∧
          t.trace = s.trace ++ [.seqWrite r val] ∧ t.reg r = val ∧ Untouched s t [r]) ∧
      u.inst = t.inst ∧ ∀ a, u.mem.read a = t.mem.read a

/-- R100: in a mode whose ceiling is COMPARE[0], UPDTOP x and UPDCMP A, x leave the same register
map. -/
def Obligations.CeilingInCompareAIsShared : Prop :=
  ∀ (s t t' : State) (x : Half),
    (s.inst.get s.target).wm.top = .reg (.compare 0) → s.quiet = true →
    exec (.updtop x) s = .next t → exec (.updcmp .a x) s = .next t' →
    t.mem = t'.mem ∧ t.trace = t'.trace

/-- R116: ACTPIN on a valid channel clears the pin's output bit, then sets its direction bit, and
leaves the other bits and every other register as they were. -/
def Obligations.ActpinMakesOutput : Prop :=
  ∀ (s : State) (ch : Channel) (i : Slot) (o p : Byte),
    s.cfg.wf = true → s.quiet = true → (s.inst.get s.target).phase ≠ .unconfigured →
    slot ch = some i →
    s.reg (.portOut (pinPort (s.dev s.target) i)) = busByte o →
    s.reg (.portDir (pinPort (s.dev s.target) i)) = busByte p →
    ∃ t, exec (.actpin ch) s = .next t ∧
      t.reg (.portOut (pinPort (s.dev s.target) i)) =
        busByte (o &&& ~~~pinMask (s.dev s.target) i) ∧
      t.reg (.portDir (pinPort (s.dev s.target) i)) = busByte (p ||| pinMask (s.dev s.target) i) ∧
      t.inst.get s.target =
        { s.inst.get s.target with
          busy := false, cmd := encode (.actpin ch), seq := 0, t := p } ∧
      t.trace = s.trace ++
        [.seqRead (.portOut (pinPort (s.dev s.target) i)) (busByte o),
         .seqWrite (.portOut (pinPort (s.dev s.target) i))
           (busByte (o &&& ~~~pinMask (s.dev s.target) i)),
         .seqRead (.portDir (pinPort (s.dev s.target) i)) (busByte p),
         .seqWrite (.portDir (pinPort (s.dev s.target) i))
           (busByte (p ||| pinMask (s.dev s.target) i))] ∧
      Untouched s t
        [.portOut (pinPort (s.dev s.target) i), .portDir (pinPort (s.dev s.target) i)]

/-! ### Rules over all commands -/

/-- R59: whatever the counters and the handler do, and whatever the reads return, the sequencer's
transactions are those of table T, in that order; a command not performed issues none. -/
def Obligations.TransactionsAreTableT : Prop :=
  ∀ (s t : State) (i : Instr), s.noReset = true → exec i s = .next t →
    seqAccesses t.trace = seqAccesses s.trace ++ tableT s s.target i

/-- R138: whatever the counters and the handler do, the last transaction of ACTIVATE is the one
write of CTRLB that carries the clock select. -/
def Obligations.ActivateWritesClockLast : Prop :=
  ∀ (s t : State) (ie : Bool) (val : Half) (code : Byte), s.noReset = true →
    psCode s.cfg s.target (s.inst.get s.target).ps = some code →
    exec (.activate ie val) s = .next t →
    (t.trace.filter fun e => (seqAccess e).isSome).getLast? =
      some (.seqWrite (.ctrlB s.target)
        (busByte (wgmB (s.dev s.target) (s.inst.get s.target).wm.mode |||
          csField (s.dev s.target) code)))

/-- R129: every legal command whose operands its instance can perform ends, in at most 11
micro-steps, with its sequencer idle, whatever the environment does. -/
def Obligations.EveryLegalCommandEnds : Prop :=
  ∀ (s : State) (i : Instr),
    ((s.inst.get s.target).phase ≠ .unconfigured ∨ isConfig i = true) →
    i.wf s.cfg s.target = true → s.cfg.wf = true → hazardOf i s.target s = none →
    (scriptOf i s.target s).length ≤ 11 ∧
      ∃ t, exec i s = .next t ∧ (t.inst.get s.target).idle = true

/-- R39: a command to one instance changes no register of another instance, and nothing of another
engine. -/
def Obligations.OtherInstancesAreUntouched : Prop :=
  ∀ (s t : State) (i : Instr) (d : Dev) (r : Reg), s.cfg.wf = true → s.quiet = true →
    exec i s = .next t → d ≠ s.target →
    t.inst.get d = s.inst.get d ∧ (ownerOf r = some d → t.reg r = s.reg r)

/-- R17: CONFIG makes the phase UNINITIALIZED, ACTIVATE makes it RUNNING, no other command changes
it; in UNCONFIGURED every command but CONFIG is refused. -/
def Obligations.PhaseMachine : Prop :=
  ∀ (s : State) (i : Instr), s.noReset = true →
    ((s.inst.get s.target).phase = .unconfigured → isConfig i = false →
      exec i s = .refused .unconfigured) ∧
    ∀ t, exec i s = .next t →
      (t.inst.get s.target).phase =
        if isConfig i = true then .uninitialized
        else if isActivate i = true then .running
        else (s.inst.get s.target).phase

/-- R118: no command but ACTIVATE clears a bit of control register A, no command but ACTPIN changes a
port register, and no command clears a bit of a direction register. -/
def Obligations.NoDeactivateNoDetach : Prop :=
  ∀ (s t : State) (i : Instr), s.cfg.wf = true → s.quiet = true →
    s.target.topOk (s.inst.get s.target).wm.top = true → exec i s = .next t →
    (isActivate i = false →
      s.reg (.ctrlA s.target) &&& t.reg (.ctrlA s.target) = s.reg (.ctrlA s.target)) ∧
    (isActpin i = false → ∀ p, t.reg (.portOut p) = s.reg (.portOut p) ∧
      t.reg (.portDir p) = s.reg (.portDir p)) ∧
    ∀ p, s.reg (.portDir p) &&& t.reg (.portDir p) = s.reg (.portDir p)

/-- R25, R118: no command but ACTIVATE changes a control register B, of any instance; so none but
ACTIVATE starts or stops a clock. -/
def Obligations.OnlyActivateStartsClock : Prop :=
  ∀ (s t : State) (i : Instr), s.cfg.wf = true → s.quiet = true →
    s.target.topOk (s.inst.get s.target).wm.top = true → exec i s = .next t →
    isActivate i = false → ∀ d, t.reg (.ctrlB d) = s.reg (.ctrlB d)

/-- R26, R44: no command's effect depends on what CTRLB, COUNT, a compare register or CEIL holds:
changing one of them beforehand changes no other register afterwards and nothing of the engine. -/
def Obligations.UnreadRegistersDoNotMatter : Prop :=
  ∀ (s t : State) (i : Instr) (r : Reg) (v : Half), s.cfg.wf = true → s.quiet = true →
    isReadByBlock r = false → exec i s = .next t →
    ∃ t', exec i (s.setReg r v) = .next t' ∧ t'.inst = t.inst ∧ t'.trace = t.trace ∧
      ∀ r', r' ≠ r → t'.reg r' = t.reg r'

/-- R38, default tables, PRESUMED (notes/assumptions/9.md): CTRLA[3:2], CTRLB[7:5], IMASK[7:3], and
on D0 and D2 CTRLB[4], are never set by a command; ACTIVATE clears them, every other command keeps them. -/
def Obligations.ReservedBitsAreNeverSet : Prop :=
  ∀ (s t : State) (i : Instr), s.cfg = Config.default → s.quiet = true →
    s.target.topOk (s.inst.get s.target).wm.top = true →
    s.target.modeOk (s.inst.get s.target).wm.mode = true → exec i s = .next t →
    (t.reg (.ctrlA s.target) &&& 0x0C =
      if isActivate i = true then 0 else s.reg (.ctrlA s.target) &&& 0x0C) ∧
    (t.reg (.ctrlB s.target) &&& 0xE0 =
      if isActivate i = true then 0 else s.reg (.ctrlB s.target) &&& 0xE0) ∧
    (t.reg (.imask s.target) &&& 0xF8 =
      if isActivate i = true then 0 else s.reg (.imask s.target) &&& 0xF8) ∧
    (s.target ≠ .d1 → t.reg (.ctrlB s.target) &&& 0x10 =
      if isActivate i = true then 0 else s.reg (.ctrlB s.target) &&& 0x10)

/-! ### The environment -/

/-- R52: with the clock-select field 0 the counter has no move; otherwise its move sets COUNT, at the
counter's width, and no other register, engine or input. -/
def Obligations.CounterMoveSetsCountOnly : Prop :=
  ∀ (s : State) (d : Dev) (v : Half), s.cfg.wf = true →
    (csOf (s.dev d) (s.reg (.ctrlB d)) = 0 → envMove s (.tick d v) = s) ∧
    (csOf (s.dev d) (s.reg (.ctrlB d)) ≠ 0 →
      (envMove s (.tick d v)).reg (.count d) = fitReg (.count d) v ∧
      (∀ r, r ≠ .count d → (envMove s (.tick d v)).reg r = s.reg r) ∧
      (envMove s (.tick d v)).inst = s.inst ∧ (envMove s (.tick d v)).gie = s.gie)

/-- R53: with `gie` = 0 the handler has no move; with `gie` = 1 it writes whole registers of table M
and cannot touch an engine or sequencer register, nor present a command. -/
def Obligations.HandlerWritesWholeRegisters : Prop :=
  ∀ (s : State) (r : Reg) (v : Half), s.cfg.wf = true →
    (s.gie = false → envMove s (.busWrite (s.cfg.addr r) r.bytes v) = s ∧
      envMove s (.busRead (s.cfg.addr r) r.bytes) = s) ∧
    (s.gie = true →
      (envMove s (.busWrite (s.cfg.addr r) r.bytes v)).reg r = fitReg r v ∧
      (∀ r', r' ≠ r → (envMove s (.busWrite (s.cfg.addr r) r.bytes v)).reg r' = s.reg r') ∧
      (envMove s (.busWrite (s.cfg.addr r) r.bytes v)).inst = s.inst ∧
      (envMove s (.busWrite (s.cfg.addr r) r.bytes v)).port = s.port ∧
      envMove s (.busRead (s.cfg.addr r) r.bytes) =
        { s with trace := s.trace ++ [.handlerRead r (s.reg r)] })

/-- R48 with D34: an access of the handler that is not the full width of a register at its address
is refused: no register, engine or input changes.  That the move is dropped with an entry in the trace
is the model's choice (notes/assumptions/12.md). -/
def Obligations.PartialHandlerAccessIsRefused : Prop :=
  ∀ (s : State) (a : Addr) (n : Nat) (v : Half), s.gie = true →
    (∀ r : Reg, s.cfg.addr r = a → r.bytes ≠ n) →
    envMove s (.busWrite a n v) = { s with trace := s.trace ++ [.handlerRefused a n] } ∧
    envMove s (.busRead a n) = { s with trace := s.trace ++ [.handlerRefused a n] }

/-- R51, for every read-modify-write of every command: if micro-step `k` reads register `r`, a
handler's write of `r` before micro-step `k + 1` is lost.  The command ends with every register, `r`
among them, and every engine as in the run in which the handler does not move, so `r` is a function of
the older value. -/
def Obligations.WriteInsideRmwIsLost : Prop :=
  ∀ (s : State) (i : Instr) (k : Nat) (r : Reg) (v : Half),
    s.cfg.wf = true → s.gie = true →
    ((s.inst.get s.target).phase ≠ .unconfigured ∨ isConfig i = true) →
    i.wf s.cfg s.target = true → guardFails i = false → hazardOf i s.target s = none →
    (scriptOf i s.target s)[k]? = some (.load r) →
    s.agenda = List.replicate (k + 1) [] ++ [[.busWrite (s.cfg.addr r) r.bytes v]] →
    ∃ t u, exec i s = .next t ∧ exec i { s with agenda := [] } = .next u ∧
      t.inst = u.inst ∧ ∀ r', t.reg r' = u.reg r'

/-- The six read-modify-writes of R51: IMASK and CTRLA in ACTIVATE, CTRLA and IMASK in ACTCH, the two
port registers in ACTPIN; the micro-step after the read writes the same register. -/
def Obligations.ReadModifyWritesOfR51 : Prop :=
  ∀ (s : State) (ie : Bool) (val : Half) (ch : Channel) (com : BitVec 2) (i : Slot),
    slot ch = some i →
    (scriptOf (.activate ie val) s.target s).flatMap MicroOp.loads =
      [.imask s.target, .ctrlA s.target] ∧
    (scriptOf (.actch ch com ie val) s.target s).flatMap MicroOp.loads =
      [.ctrlA s.target, .imask s.target] ∧
    (scriptOf (.actpin ch) s.target s).flatMap MicroOp.loads =
      [.portOut (pinPort (s.dev s.target) i), .portDir (pinPort (s.dev s.target) i)] ∧
    ∀ (c : Instr) (k : Nat) (r : Reg), (scriptOf c s.target s)[k]? = some (.load r) →
      ∃ op, (scriptOf c s.target s)[k + 1]? = some op ∧ op.writes = [r]

/-- R54: in the critical section every command is atomic with respect to the handler: taking the
handler's moves out of the agenda changes nothing of the outcome but the agenda. -/
def Obligations.CriticalSectionExcludesHandler : Prop :=
  ∀ (s : State) (i : Instr), s.criticalSection = true →
    (∀ t, exec i s = .next t →
      ∃ t', exec i s.withoutHandler = .next t' ∧ { t' with agenda := [] } = { t with agenda := [] }) ∧
    (∀ r, exec i s = .refused r → exec i s.withoutHandler = .refused r)

/-- R133: a reset before micro-step `k`, whichever it is and whatever else moves before it, cancels the
command: every instance and every register of the block is at its reset value, and the transactions
issued are those of the micro-steps before `k` only.  Two clauses are the model's choice: that `gie` is
0 then, `gie` being no state of the block (R134, notes/assumptions/8.md, 15.md), and the values
`Inst.reset` gives E.wm, E.ps, cmd and t, which hold none after reset (R33, R134,
notes/assumptions/6.md). -/
def Obligations.ResetCancelsCommand : Prop :=
  ∀ (s : State) (i : Instr) (pre : List (List EnvMove)) (p : List EnvMove)
    (ps : List (List EnvMove)),
    ((s.inst.get s.target).phase ≠ .unconfigured ∨ isConfig i = true) →
    i.wf s.cfg s.target = true → guardFails i = false → hazardOf i s.target s = none →
    s.agenda = pre ++ (p ++ [.reset]) :: ps →
    (∀ q ∈ pre, ∀ m ∈ q, isReset m = false) →
    pre.length < (scriptOf i s.target s).length →
    ∃ t, exec i s = .next t ∧
      t.inst = ⟨Inst.reset, Inst.reset, Inst.reset⟩ ∧ t.mem = Memory.ofReset s.cfg ∧
      t.gie = false ∧
      seqAccesses t.trace = seqAccesses s.trace ++
        ((scriptOf i s.target s).take pre.length).flatMap opAccess

/-! ### Storage -/

/-- R37, R45: a register write makes the register hold the value in all its bits and leaves every
other register, and every byte outside the register, as it was. -/
def Obligations.RegistersArePlainStorage : Prop :=
  ∀ (s : State) (r r' : Reg) (v : Half) (a : Nat), s.cfg.wf = true →
    (s.setReg r v).reg r = fitReg r v ∧ (r' ≠ r → (s.setReg r v).reg r' = s.reg r') ∧
      (occupies s.cfg r a = false → (s.setReg r v).mem.read a = s.mem.read a)

/-- R47, the byte order of the spec's decision D20 (notes/assumptions/11.md): of a 16-bit register the
byte at its address is bits [7:0], the next byte bits [15:8]. -/
def Obligations.SixteenBitRegistersAreLittleEndian : Prop :=
  ∀ (s : State) (r : Reg) (v : Half), r.bytes = 2 →
    (s.setReg r v).mem.read (s.cfg.addr r).toNat = v.extractLsb' 0 8 ∧
      (s.setReg r v).mem.read ((s.cfg.addr r).toNat + 1) = v.extractLsb' 8 8

/-- R88: two waveform modes are equal when their patterns are, whatever their ceiling sources. -/
def Obligations.WaveformEqualityIsByPattern : Prop :=
  (∀ a b : WaveformMode, a.wmEq b = true ↔ a.mode = b.mode) ∧
    ∀ (m : BitVec 6) (t t' : Top), (⟨m, t⟩ : WaveformMode).wmEq ⟨m, t'⟩ = true

/-- R71: the enable masks, by their bit numbers and with the default ones; and setBit makes the masked
bit the flag and keeps every other bit.  The default numbers are PRESUMED (notes/assumptions/9.md). -/
def Obligations.SetBitSetsOneBit : Prop :=
  (∀ (c : DevConfig) (i : Slot), toieMask c = 1#8 <<< c.toieBit ∧
    ocieMask c i = 1#8 <<< c.ocieBit.get i) ∧
  (∀ d : Dev, toieMask (Config.default.dev.get d) = 0x01 ∧
    ocieMask (Config.default.dev.get d) 0 = 0x02 ∧ ocieMask (Config.default.dev.get d) 1 = 0x04) ∧
  (∀ (v mask : Byte) (f : Bool), setBit v mask f = (v &&& ~~~mask) ||| (if f then mask else 0)) ∧
  ∀ (v : Byte) (k j : Nat) (f : Bool), k < 8 → j < 8 →
    (setBit v (1#8 <<< k) f).getLsbD j = if j = k then f else v.getLsbD j

/-- R69, for every configuration of the spec: the contribution of a catalog mode to CTRLB stays in
the two bits above WGM_B_SHIFT and never reaches the clock-select field. -/
def Obligations.ModeBitsStayOutOfClockField : Prop :=
  ∀ (c : Config) (d : Dev) (w : WaveformMode) (k : Nat), c.wf = true →
    w ∈ (c.dev.get d).catalog.map CatalogRow.wm → (wgmB (c.dev.get d) w.mode).getLsbD k = true →
    (c.dev.get d).wgmBShift ≤ k ∧ k < (c.dev.get d).wgmBShift + 2 ∧
      ¬((c.dev.get d).csLsb ≤ k ∧ k < (c.dev.get d).csLsb + (c.dev.get d).csWidth)

/-! ### Reset and the invariant -/

/-- R134: what reset leaves, with the default configuration, whose CSR_RESET and `gie` = 0 are the
spec's defaults (notes/assumptions/7.md, 8.md).  The values of E.wm, E.ps, cmd and t,
which the spec does not give, are not stated. -/
def Obligations.ResetLeavesSpecValues : Prop :=
  (∀ d : Dev, (State.reset.inst.get d).phase = .unconfigured ∧
    (State.reset.inst.get d).com = ⟨.disconnected, .disconnected⟩ ∧
    (State.reset.inst.get d).chActive = ⟨false, false⟩ ∧
    (State.reset.inst.get d).busy = false ∧ (State.reset.inst.get d).seq = 0) ∧
  (∀ r : Reg, State.reset.reg r = 0) ∧ State.reset.gie = false

/-- CSR_RESET (R34): with any configuration of the spec whose listed registers are distinct and whose
values fit, every listed register holds its listed value after reset and every other one zero; that
an unlisted register is zero is PRESUMED (notes/assumptions/7.md). -/
def Obligations.CsrResetIsHonoured : Prop :=
  ∀ (c : Config) (r : Reg), c.wf = true → (c.csrReset.map Prod.fst).Nodup →
    (∀ p ∈ c.csrReset, fitReg p.1 p.2 = p.2) →
    (∀ v, (r, v) ∈ c.csrReset → (State.resetWith c).reg r = v) ∧
      (r ∉ c.csrReset.map Prod.fst → (State.resetWith c).reg r = 0)

/-- The invariant holds after reset. -/
def Obligations.InvHoldsAtReset : Prop := State.reset.Inv = true

/-- Every step keeps the invariant: storage canonical, sequencers idle, configured engines holding a
catalog row and a prescaler of their instance (R15, R20, R90). -/
def Obligations.StepKeepsInv : Prop :=
  ∀ s t : State, s.Inv = true → step s = .next t → t.Inv = true

/-- In a state that meets the invariant no step stops with a fault (R119). -/
def Obligations.NoFaultUnderInv : Prop :=
  ∀ (s : State) (f : Fault), s.Inv = true → step s ≠ .fault f
end

