-- ==== Sys2Proof/Laws/Memory.lean ====
section
/-! SUPPORT. Laws of the register map's storage: read after write, the canonical form, and access to
a whole register. -/

namespace Sys2Proof.Machine

/-! ### Bytes -/

theorem Memory.read_without_same (m : Memory) (a : Nat) : (m.without a).read a = unlistedByte := by
  induction m with
  | nil => rfl
  | cons c m ih =>
    by_cases h : c.1 = a <;> simp_all [Memory.without, Memory.read]

theorem Memory.read_without_ne (m : Memory) {a b : Nat} (h : b ≠ a) :
    (m.without a).read b = m.read b := by
  induction m with
  | nil => rfl
  | cons c m ih =>
    obtain ⟨k, x⟩ := c
    by_cases hk : k = a
    · subst hk
      simpa [Memory.without, Memory.read, List.filter_cons, Ne.symm h] using ih
    · simp only [Memory.without, List.filter_cons, bne_iff_ne, ne_eq, hk, not_false_eq_true, if_true,
        Memory.read]
      split
      · rfl
      · exact ih

theorem Memory.read_place_same (m : Memory) (a : Nat) (v : Byte) (h : ∀ c ∈ m, c.1 ≠ a) :
    (m.place a v).read a = v := by
  induction m with
  | nil => simp [Memory.place, Memory.read]
  | cons c m ih =>
    obtain ⟨k, x⟩ := c
    simp only [Memory.place]
    have hk : k ≠ a := h (k, x) List.mem_cons_self
    split
    · simp [Memory.read]
    · simp [Memory.read, hk, ih fun c hc => h c (List.mem_cons_of_mem _ hc)]

theorem Memory.read_place_ne (m : Memory) {a b : Nat} (v : Byte) (h : b ≠ a) :
    (m.place a v).read b = m.read b := by
  induction m with
  | nil => simp [Memory.place, Memory.read, Ne.symm h]
  | cons c m ih =>
    obtain ⟨k, x⟩ := c
    simp only [Memory.place]
    split
    · simp [Memory.read, Ne.symm h]
    · simp only [Memory.read]
      split
      · rfl
      · exact ih

theorem Memory.without_no_key (m : Memory) (a : Nat) : ∀ c ∈ m.without a, c.1 ≠ a := by
  intro c hc
  simpa using (List.mem_filter.mp hc).2

/-- A byte reads back as written. -/
theorem Memory.read_write_same (m : Memory) (a : Nat) (v : Byte) : (m.write a v).read a = v := by
  unfold Memory.write
  split
  · rename_i h
    rw [Memory.read_without_same, h]
  · exact Memory.read_place_same _ _ _ (Memory.without_no_key m a)

/-- A write leaves every other byte alone. -/
theorem Memory.read_write_ne (m : Memory) {a b : Nat} (v : Byte) (h : b ≠ a) :
    (m.write a v).read b = m.read b := by
  unfold Memory.write
  split
  · exact Memory.read_without_ne m h
  · rw [Memory.read_place_ne _ _ h, Memory.read_without_ne m h]

theorem Memory.read_write (m : Memory) (a b : Nat) (v : Byte) :
    (m.write a v).read b = if b = a then v else m.read b := by
  split
  · rename_i h
    rw [h, Memory.read_write_same]
  · rename_i h
    exact Memory.read_write_ne m v h

/-! ### The canonical form -/

theorem Memory.wf_cons {k : Nat} {v : Byte} {m : Memory} :
    Memory.wf ((k, v) :: m) = true ↔
      v ≠ unlistedByte ∧ (∀ c ∈ m, k < c.1) ∧ Memory.wf m = true := by
  simp [Memory.wf, and_assoc]

theorem Memory.without_wf {m : Memory} (a : Nat) (h : m.wf = true) : (m.without a).wf = true := by
  induction m with
  | nil => rfl
  | cons c m ih =>
    obtain ⟨k, v⟩ := c
    obtain ⟨hv, hk, hm⟩ := Memory.wf_cons.mp h
    by_cases ha : k = a
    · simpa [Memory.without, List.filter_cons, ha] using ih hm
    · have : Memory.without ((k, v) :: m) a = (k, v) :: Memory.without m a := by
        simp [Memory.without, ha]
      rw [this]
      exact Memory.wf_cons.mpr ⟨hv, fun c hc => hk c (List.mem_filter.mp hc).1, ih hm⟩

theorem Memory.mem_place {m : Memory} {a : Nat} {v : Byte} {c : Host.Cell}
    (h : c ∈ m.place a v) : c = (a, v) ∨ c ∈ m := by
  induction m with
  | nil => simpa [Memory.place] using h
  | cons x m ih =>
    simp only [Memory.place] at h
    split at h
    · simpa using h
    · rcases List.mem_cons.mp h with h | h
      · exact .inr (h ▸ List.mem_cons_self)
      · exact (ih h).imp_right (List.mem_cons_of_mem _)

theorem Memory.place_wf {m : Memory} {a : Nat} {v : Byte} (hv : v ≠ unlistedByte)
    (ha : ∀ c ∈ m, c.1 ≠ a) (h : m.wf = true) : (m.place a v).wf = true := by
  induction m with
  | nil => simp [Memory.place, Memory.wf, hv]
  | cons c m ih =>
    obtain ⟨k, x⟩ := c
    obtain ⟨hx, hk, hm⟩ := Memory.wf_cons.mp h
    simp only [Memory.place]
    split
    · rename_i hlt
      refine Memory.wf_cons.mpr ⟨hv, ?_, h⟩
      intro c hc
      rcases List.mem_cons.mp hc with rfl | hc
      · exact hlt
      · exact hlt.trans (hk c hc)
    · rename_i hlt
      have hne : k ≠ a := ha (k, x) List.mem_cons_self
      refine Memory.wf_cons.mpr ⟨hx, ?_, ih (fun c hc => ha c (List.mem_cons_of_mem _ hc)) hm⟩
      intro c hc
      rcases Memory.mem_place hc with rfl | hc
      · exact show k < a by omega
      · exact hk c hc

/-- A write keeps the canonical form. -/
theorem Memory.write_wf {m : Memory} (a : Nat) (v : Byte) (h : m.wf = true) :
    (m.write a v).wf = true := by
  unfold Memory.write
  split
  · exact Memory.without_wf a h
  · rename_i hv
    exact Memory.place_wf hv (Memory.without_no_key m a) (Memory.without_wf a h)

theorem Memory.read_of_low {m : Memory} {a : Nat} (h : ∀ c ∈ m, a < c.1) :
    m.read a = unlistedByte := by
  induction m with
  | nil => rfl
  | cons c m ih =>
    obtain ⟨k, x⟩ := c
    have : a < k := h (k, x) List.mem_cons_self
    simp [Memory.read, this.ne', ih fun c hc => h c (List.mem_cons_of_mem _ hc)]

/-- Memories in canonical form that read alike at every address are the same list. -/
theorem Memory.ext_of_wf {m m' : Memory} (h : m.wf = true) (h' : m'.wf = true)
    (hr : ∀ a, m.read a = m'.read a) : m = m' := by
  induction m generalizing m' with
  | nil =>
    cases m' with
    | nil => rfl
    | cons c m' =>
      obtain ⟨k, x⟩ := c
      have := hr k
      simp [Memory.read] at this
      exact absurd this.symm (Memory.wf_cons.mp h').1
  | cons c m ih =>
    obtain ⟨k, x⟩ := c
    obtain ⟨hx, hk, hm⟩ := Memory.wf_cons.mp h
    cases m' with
    | nil =>
      have := hr k
      simp [Memory.read] at this
      exact absurd this hx
    | cons c' m' =>
      obtain ⟨k', x'⟩ := c'
      obtain ⟨hx', hk', hm'⟩ := Memory.wf_cons.mp h'
      have hkk : k = k' := by
        rcases Nat.lt_trichotomy k k' with hlt | heq | hlt
        · have h1 := hr k
          have h2 : Memory.read ((k', x') :: m') k = unlistedByte :=
            Memory.read_of_low fun c hc => by
              rcases List.mem_cons.mp hc with rfl | hc
              · exact hlt
              · exact hlt.trans (hk' c hc)
          rw [h2] at h1
          simp [Memory.read] at h1
          exact absurd h1 hx
        · exact heq
        · have h1 := hr k'
          have h2 : Memory.read ((k, x) :: m) k' = unlistedByte :=
            Memory.read_of_low fun c hc => by
              rcases List.mem_cons.mp hc with rfl | hc
              · exact hlt
              · exact hlt.trans (hk c hc)
          rw [h2] at h1
          simp [Memory.read] at h1
          exact absurd h1.symm hx'
      subst hkk
      have hxx : x = x' := by simpa [Memory.read] using hr k
      subst hxx
      congr 1
      refine ih hm hm' fun a => ?_
      by_cases ha : k = a
      · subst ha
        rw [Memory.read_of_low hk, Memory.read_of_low hk']
      · simpa [Memory.read, ha] using hr a

/-! ### Registers -/

theorem Reg.one_le_bytes (r : Reg) : 1 ≤ r.bytes := by
  rcases r with d | d | d | d | ⟨d, i⟩ | _ | p | p
  all_goals first | (cases d <;> simp [Reg.bytes, Dev.res]) | simp [Reg.bytes]

/-- A register reads back as written, in every bit (R37, R45). -/
theorem Memory.readReg_writeReg_same (c : Config) (m : Memory) (r : Reg) (v : Half) :
    Memory.readReg c (Memory.writeReg c m r v) r = fitReg r v := by
  by_cases h : r.bytes = 2
  · simp only [Memory.readReg, Memory.writeReg, fitReg, h, if_true, Memory.read_write_same]
    rw [Memory.read_write_ne _ _ (Nat.ne_of_lt (Nat.lt_succ_self _)), Memory.read_write_same]
    ext i hi
    simp only [BitVec.getElem_append, BitVec.getElem_setWidth, BitVec.getElem_extractLsb']
    split
    · exact BitVec.getLsbD_eq_getElem hi
    · rw [show 8 + (i - 8) = i by omega]
      exact BitVec.getLsbD_eq_getElem hi
  · simp [Memory.readReg, Memory.writeReg, fitReg, h, Memory.read_write_same]

/-- A register write leaves every byte outside the register alone. -/
theorem Memory.read_writeReg_outside (c : Config) (m : Memory) (r : Reg) (v : Half) {a : Nat}
    (h : occupies c r a = false) : (Memory.writeReg c m r v).read a = m.read a := by
  simp only [occupies, decide_eq_false_iff_not, not_and, not_lt] at h
  have hb := Reg.one_le_bytes r
  simp only [Memory.writeReg]
  split
  · rename_i h2
    rw [Memory.read_write_ne _ _ (by rintro rfl; omega),
      Memory.read_write_ne _ _ (by rintro rfl; omega)]
  · rw [Memory.read_write_ne _ _ (by rintro rfl; omega)]

theorem Memory.writeReg_wf {c : Config} {m : Memory} (r : Reg) (v : Half) (h : m.wf = true) :
    (Memory.writeReg c m r v).wf = true := by
  simp only [Memory.writeReg]
  split
  · exact Memory.write_wf _ _ (Memory.write_wf _ _ h)
  · exact Memory.write_wf _ _ h

/-- Memory after reset is in canonical form. -/
theorem Memory.ofReset_wf (c : Config) : (Memory.ofReset c).wf = true := by
  unfold Memory.ofReset
  suffices ∀ (l : List (Reg × Half)) (m : Memory), m.wf = true →
      (l.foldl (fun m p => Memory.writeReg c m p.1 p.2) m).wf = true from this _ _ rfl
  intro l
  induction l with
  | nil => exact fun m h => h
  | cons p l ih => exact fun m h => ih _ (Memory.writeReg_wf _ _ h)

theorem Reg.mem_all (r : Reg) : r ∈ Reg.all := by
  rcases r with d | d | d | d | ⟨d, i⟩ | _ | p | p
  · cases d <;> decide
  · cases d <;> decide
  · cases d <;> decide
  · cases d <;> decide
  · cases d <;> revert i <;> decide
  · decide
  · cases p <;> decide
  · cases p <;> decide

/-- Different registers share no byte (R41, R43). -/
theorem Config.apart_of_addrOk {c : Config} (h : c.addrOk = true) {r r' : Reg} (hne : r ≠ r') :
    (c.addr r).toNat + r.bytes ≤ (c.addr r').toNat ∨
      (c.addr r').toNat + r'.bytes ≤ (c.addr r).toNat := by
  unfold Config.addrOk at h
  have h1 := List.all_eq_true.mp h r (Reg.mem_all r)
  rw [Bool.and_eq_true] at h1
  have h2 := List.all_eq_true.mp h1.2 r' (Reg.mem_all r')
  simpa [Config.apart, hne] using h2

/-- A register write leaves every other register alone. -/
theorem Memory.readReg_writeReg_ne {c : Config} (h : c.addrOk = true) (m : Memory) {r r' : Reg}
    (hne : r' ≠ r) (v : Half) :
    Memory.readReg c (Memory.writeReg c m r v) r' = Memory.readReg c m r' := by
  have hd := Config.apart_of_addrOk h hne
  have hout : ∀ a, (c.addr r').toNat ≤ a → a < (c.addr r').toNat + r'.bytes →
      (Memory.writeReg c m r v).read a = m.read a := by
    intro a h1 h2
    refine Memory.read_writeReg_outside c m r v ?_
    simp only [occupies, decide_eq_false_iff_not, not_and, not_lt]
    omega
  have hb := Reg.one_le_bytes r'
  simp only [Memory.readReg]
  split
  · rename_i h2
    rw [hout _ (by omega) (by omega), hout _ (by omega) (by omega)]
  · rw [hout _ (by omega) (by omega)]

end Sys2Proof.Machine
end

