-- ==== Sys2Proof/Laws/State.lean ====
section
/-! SUPPORT. One lemma for each field of State under each update, and the laws of reading a register
after an update. -/

namespace Sys2Proof

/-! ### Tables indexed by instance and by channel -/

@[simp] theorem PerDev.get_set_same {α : Type} (p : PerDev α) (d : Dev) (v : α) :
    (p.set d v).get d = v := by cases d <;> rfl

theorem PerDev.get_set_ne {α : Type} (p : PerDev α) {d d' : Dev} (v : α) (h : d' ≠ d) :
    (p.set d v).get d' = p.get d' := by
  cases d <;> cases d' <;> first | rfl | exact absurd rfl h

theorem PerDev.get_set {α : Type} (p : PerDev α) (d d' : Dev) (v : α) :
    (p.set d v).get d' = if d' = d then v else p.get d' := by
  split
  · rename_i h
    rw [h, PerDev.get_set_same]
  · rename_i h
    exact PerDev.get_set_ne p v h

@[simp] theorem PerDev.set_set {α : Type} (p : PerDev α) (d : Dev) (v w : α) :
    (p.set d v).set d w = p.set d w := by cases d <;> rfl

@[simp] theorem PerDev.set_get {α : Type} (p : PerDev α) (d : Dev) : p.set d (p.get d) = p := by
  cases d <;> rfl

theorem PerDev.ext_get {α : Type} {p q : PerDev α} (h : ∀ d, p.get d = q.get d) : p = q := by
  obtain ⟨a, b, c⟩ := p
  obtain ⟨a', b', c'⟩ := q
  have h0 := h .d0
  have h1 := h .d1
  have h2 := h .d2
  simp only [PerDev.get] at h0 h1 h2
  rw [h0, h1, h2]

theorem slot_eq_one : ∀ {i : Slot}, ¬i = 0 → i = 1 := by decide

@[simp] theorem PerChan.get_set_same {α : Type} (p : PerChan α) (i : Slot) (v : α) :
    (p.set i v).get i = v := by
  by_cases h : i = 0 <;> simp [PerChan.set, PerChan.get, h]

theorem PerChan.get_set_ne {α : Type} (p : PerChan α) {i j : Slot} (v : α) (h : j ≠ i) :
    (p.set i v).get j = p.get j := by
  by_cases hi : i = 0 <;> by_cases hj : j = 0 <;> simp [PerChan.set, PerChan.get, hi, hj]
  · exact absurd (hj.trans hi.symm) h
  · exact absurd ((slot_eq_one hj).trans (slot_eq_one hi).symm) h

/-- Writing two different channels commutes. -/
theorem PerChan.set_comm {α : Type} (p : PerChan α) {i j : Slot} (v w : α) (h : j ≠ i) :
    (p.set i v).set j w = (p.set j w).set i v := by
  by_cases hi : i = 0 <;> by_cases hj : j = 0 <;> simp [PerChan.set, hi, hj]
  · exact absurd (hj.trans hi.symm) h
  · exact absurd ((slot_eq_one hj).trans (slot_eq_one hi).symm) h

namespace Machine

/-! ### `setReg` -/

@[simp] theorem State.setReg_cfg (s : State) (r : Reg) (v : Half) : (s.setReg r v).cfg = s.cfg := rfl
@[simp] theorem State.setReg_inst (s : State) (r : Reg) (v : Half) : (s.setReg r v).inst = s.inst := rfl
@[simp] theorem State.setReg_mem (s : State) (r : Reg) (v : Half) :
    (s.setReg r v).mem = Memory.writeReg s.cfg s.mem r v := rfl
@[simp] theorem State.setReg_gie (s : State) (r : Reg) (v : Half) : (s.setReg r v).gie = s.gie := rfl
@[simp] theorem State.setReg_port (s : State) (r : Reg) (v : Half) : (s.setReg r v).port = s.port := rfl
@[simp] theorem State.setReg_target (s : State) (r : Reg) (v : Half) :
    (s.setReg r v).target = s.target := rfl
@[simp] theorem State.setReg_agenda (s : State) (r : Reg) (v : Half) :
    (s.setReg r v).agenda = s.agenda := rfl
@[simp] theorem State.setReg_trace (s : State) (r : Reg) (v : Half) :
    (s.setReg r v).trace = s.trace := rfl

/-! ### `log` -/

@[simp] theorem State.log_cfg (s : State) (e : BusEvent) : (s.log e).cfg = s.cfg := rfl
@[simp] theorem State.log_inst (s : State) (e : BusEvent) : (s.log e).inst = s.inst := rfl
@[simp] theorem State.log_mem (s : State) (e : BusEvent) : (s.log e).mem = s.mem := rfl
@[simp] theorem State.log_gie (s : State) (e : BusEvent) : (s.log e).gie = s.gie := rfl
@[simp] theorem State.log_port (s : State) (e : BusEvent) : (s.log e).port = s.port := rfl
@[simp] theorem State.log_target (s : State) (e : BusEvent) : (s.log e).target = s.target := rfl
@[simp] theorem State.log_agenda (s : State) (e : BusEvent) : (s.log e).agenda = s.agenda := rfl
@[simp] theorem State.log_trace (s : State) (e : BusEvent) : (s.log e).trace = s.trace ++ [e] := rfl

/-! ### `setInst` -/

@[simp] theorem State.setInst_cfg (s : State) (d : Dev) (x : Inst) : (s.setInst d x).cfg = s.cfg := rfl
@[simp] theorem State.setInst_inst (s : State) (d : Dev) (x : Inst) :
    (s.setInst d x).inst = s.inst.set d x := rfl
@[simp] theorem State.setInst_mem (s : State) (d : Dev) (x : Inst) : (s.setInst d x).mem = s.mem := rfl
@[simp] theorem State.setInst_gie (s : State) (d : Dev) (x : Inst) : (s.setInst d x).gie = s.gie := rfl
@[simp] theorem State.setInst_port (s : State) (d : Dev) (x : Inst) : (s.setInst d x).port = s.port := rfl
@[simp] theorem State.setInst_target (s : State) (d : Dev) (x : Inst) :
    (s.setInst d x).target = s.target := rfl
@[simp] theorem State.setInst_agenda (s : State) (d : Dev) (x : Inst) :
    (s.setInst d x).agenda = s.agenda := rfl
@[simp] theorem State.setInst_trace (s : State) (d : Dev) (x : Inst) :
    (s.setInst d x).trace = s.trace := rfl

/-! ### Reading a register after an update -/

@[simp] theorem State.reg_setReg_same (s : State) (r : Reg) (v : Half) :
    (s.setReg r v).reg r = fitReg r v := Memory.readReg_writeReg_same s.cfg s.mem r v

theorem State.reg_setReg_ne {s : State} (h : s.cfg.addrOk = true) {r r' : Reg} (hne : r' ≠ r)
    (v : Half) : (s.setReg r v).reg r' = s.reg r' := Memory.readReg_writeReg_ne h s.mem hne v

@[simp] theorem State.reg_log (s : State) (e : BusEvent) (r : Reg) : (s.log e).reg r = s.reg r := rfl
@[simp] theorem State.reg_setInst (s : State) (d : Dev) (x : Inst) (r : Reg) :
    (s.setInst d x).reg r = s.reg r := rfl

theorem State.reg_congr {s t : State} (hc : t.cfg = s.cfg) (hm : t.mem = s.mem) (r : Reg) :
    t.reg r = s.reg r := by simp only [State.reg, hc, hm]

/-- A register none of whose bytes has changed reads as before. -/
theorem State.reg_of_bytes {s t : State} (hc : t.cfg = s.cfg) {r : Reg}
    (h : ∀ a, occupies s.cfg r a = true → t.mem.read a = s.mem.read a) : t.reg r = s.reg r := by
  have hb := Reg.one_le_bytes r
  simp only [State.reg, Memory.readReg, hc]
  split
  · rename_i h2
    rw [h _ (by simp [occupies]; omega), h _ (by simp [occupies]; omega)]
  · rw [h _ (by simp [occupies]; omega)]

/-! ### Values on the bus -/

/-- A byte is written whole to any register. -/
@[simp] theorem fitReg_busByte (r : Reg) (v : Byte) : fitReg r (busByte v) = busByte v := by
  simp [fitReg, busByte]

@[simp] theorem fitReg_zero (r : Reg) : fitReg r 0 = 0 := by
  simp [fitReg]

theorem busByte_setWidth (v : Byte) : (busByte v).setWidth 8 = v := by simp [busByte]

end Machine

end Sys2Proof
end

