-- ==== Sys2Proof/Laws/Operands.lean ====
section
/-! SUPPORT. Laws of the operands: channels, look-ups, legality. -/

namespace Sys2Proof.Machine

/-! ### Channels -/

/-- The bound check fails exactly when the channel has no table index (R62). -/
theorem slot_eq_none_iff (ch : Channel) : slot ch = none ↔ outOfRange ch = true := by
  cases ch <;> decide

theorem slot_isSome_of_inRange {ch : Channel} (h : outOfRange ch = false) :
    ∃ i, slot ch = some i := by
  cases ch
  · exact ⟨0, by decide⟩
  · exact ⟨1, by decide⟩
  · exact absurd h (by decide)
  · exact absurd h (by decide)

theorem outOfRange_of_slot {ch : Channel} {i : Slot} (h : slot ch = some i) :
    outOfRange ch = false := by
  cases ch
  · decide
  · decide
  · exact absurd h (by revert i; decide)
  · exact absurd h (by revert i; decide)

/-! ### Legality -/

theorem fitsRes_iff (d : Dev) (v : Half) : fitsRes d v = true ↔ v.toNat < 2 ^ d.res := by
  have key : (v.extractLsb' 8 8 == 0) = true ↔ v.toNat < 2 ^ 8 := by
    rw [beq_iff_eq, ← BitVec.toNat_inj]
    have := v.isLt
    rw [show (0 : BitVec 8).toNat = 0 from rfl, BitVec.extractLsb'_toNat, Nat.shiftRight_eq_div_pow]
    omega
  have hv := v.isLt
  cases d
  · simpa [fitsRes, Dev.res] using key
  · simp only [fitsRes, Dev.res, beq_self_eq_true, Bool.true_or, true_iff]
    exact hv
  · simpa [fitsRes, Dev.res] using key

theorem fitsRes_eq_wf (d : Dev) (v : Half) : fitsRes d v = valWellFormed d v := by
  rw [Bool.eq_iff_iff, fitsRes_iff, valWellFormed, decide_eq_true_iff]

theorem prescalerNames_get (p : BitVec 4) : prescalerNames[p.toNat]? = prescalerOfPsid p := rfl

theorem wmDecode_isSome_iff (c : Config) (d : Dev) (w : BitVec 6) :
    (wmDecode c d w).isSome = wmidWellFormed c d w := by
  rw [Bool.eq_iff_iff]
  simp [wmDecode, wmidWellFormed, List.find?_isSome]

theorem psCode_isSome_iff (c : Config) (d : Dev) (ps : Prescaler) :
    (psCode c d ps).isSome = ((c.dev.get d).psCode.map Prod.fst).contains ps := by
  rw [Bool.eq_iff_iff]
  simp [psCode, List.find?_isSome]

theorem psDecode_isSome_iff (c : Config) (d : Dev) (p : BitVec 4) :
    (psDecode c d p).isSome = psidWellFormed c d p := by
  unfold psDecode psidWellFormed
  rw [prescalerNames_get]
  cases h : prescalerOfPsid p with
  | none => rfl
  | some ps =>
    simp only [← psCode_isSome_iff]
    split <;> simp_all

/-- Steps (3) and (4) of R81 refuse exactly the ill-formed commands of R78 and R79. -/
theorem operandRefusal_eq_none_iff (c : Config) (d : Dev) (i : Instr) :
    operandRefusal c d i = none ↔ i.wf c d = true := by
  cases i with
  | config wmid psid =>
    simp only [operandRefusal, Instr.wf, ← wmDecode_isSome_iff, ← psDecode_isSome_iff]
    cases c.catalogOk d <;> cases wmDecode c d wmid <;> cases psDecode c d psid <;> simp
  | activate ie val => simp [operandRefusal, Instr.wf, fitsRes_eq_wf]
  | actch ch com ie val => simp [operandRefusal, Instr.wf, fitsRes_eq_wf]
  | actpin ch => simp [operandRefusal, Instr.wf]
  | updtop val => simp [operandRefusal, Instr.wf, fitsRes_eq_wf]
  | updcmp ch val => simp [operandRefusal, Instr.wf, fitsRes_eq_wf]

/-- A well-formed command is legal in a configured instance; CONFIG in any (R81). -/
theorem legality_eq_none {c : Config} {d : Dev} {phase : Phase} {i : Instr}
    (hp : phase ≠ .unconfigured ∨ isConfig i = true) (hw : i.wf c d = true) :
    legality c d phase i = none := by
  unfold legality
  rw [if_neg, (operandRefusal_eq_none_iff c d i).mpr hw]
  rintro ⟨h1, h2⟩
  rcases hp with hp | hp
  · exact hp h1
  · rw [h2] at hp
    exact Bool.noConfusion hp

theorem legality_eq_none_iff (c : Config) (d : Dev) (phase : Phase) (i : Instr) :
    legality c d phase i = none ↔
      (phase ≠ .unconfigured ∨ isConfig i = true) ∧ i.wf c d = true := by
  constructor
  · intro h
    unfold legality at h
    split at h
    · exact absurd h (by simp)
    · rename_i hn
      refine ⟨?_, (operandRefusal_eq_none_iff c d i).mp h⟩
      by_cases hp : phase = .unconfigured
      · right
        cases hc : isConfig i
        · exact absurd ⟨hp, hc⟩ hn
        · rfl
      · exact .inl hp
  · exact fun h => legality_eq_none h.1 h.2

/-- A value that fits RES is the value an RES-wide register holds after the write (R45, R78). -/
theorem fitReg_of_res {d : Dev} {r : Reg} (hb : r.bytes = d.res / 8) {v : Half}
    (h : v.toNat < 2 ^ d.res) : fitReg r v = v := by
  unfold fitReg
  split
  · rfl
  · rename_i h2
    have h8 : d.res = 8 := by
      cases d
      · rfl
      · exact absurd hb (by rw [show Dev.d1.res / 8 = 2 from rfl]; exact h2)
      · rfl
    rw [h8] at h
    apply BitVec.eq_of_toNat_eq
    simp only [BitVec.toNat_setWidth]
    omega

/-- The ceiling register of a mode that meets R94 (d) is RES bits wide. -/
theorem topReg_bytes {d : Dev} {w : WaveformMode} {r : Reg} (hok : d.topOk w.top = true)
    (h : topReg d w = some r) : r.bytes = d.res / 8 := by
  unfold topReg at h
  cases ht : w.top with
  | fixed c => simp [ht] at h
  | reg n =>
    rw [ht] at h hok
    simp only [Dev.topOk, Bool.or_eq_true, Bool.and_eq_true, beq_iff_eq] at hok
    rcases hok with rfl | ⟨rfl, rfl⟩
    · simp only [Csr.on, Option.some.injEq] at h
      subst h
      rfl
    · simp only [Csr.on, Option.some.injEq] at h
      subst h
      rfl

/-- A mode that meets R94 (d) and has a dynamic ceiling has a register for it. -/
theorem topReg_of_topOk {d : Dev} {w : WaveformMode} (hok : d.topOk w.top = true) :
    hasDynamicTop w = true → ∃ r, topReg d w = some r := by
  intro hd
  unfold topReg hasDynamicTop at *
  cases ht : w.top with
  | fixed c => simp [ht] at hd
  | reg n =>
    rw [ht] at hok
    simp only [Dev.topOk, Bool.or_eq_true, Bool.and_eq_true, beq_iff_eq] at hok
    rcases hok with rfl | ⟨rfl, rfl⟩
    · exact ⟨_, rfl⟩
    · exact ⟨_, rfl⟩

theorem ceilingHazard_eq_none {d : Dev} {w : WaveformMode} (hok : d.topOk w.top = true) :
    ceilingHazard d w = none := by
  unfold ceilingHazard
  split
  · rename_i h
    rw [Bool.and_eq_true] at h
    obtain ⟨r, hr⟩ := topReg_of_topOk hok h.1
    rw [hr] at h
    exact absurd h.2 (by simp)
  · rfl

/-- A fixed ceiling has no register, a dynamic one has some (R87). -/
theorem topReg_of_fixed {d : Dev} {w : WaveformMode} (h : hasDynamicTop w = false) :
    topReg d w = none := by
  unfold topReg hasDynamicTop at *
  cases ht : w.top with
  | fixed c => rfl
  | reg n => simp [ht] at h

/-- Every row of a catalog that meets R94 has a TOP source that meets R94 (d) and a pattern that
meets R94 (b). -/
theorem catalog_row_ok {c : Config} {d : Dev} (h : c.catalogOk d = true) {w : WaveformMode}
    (hw : w ∈ (c.dev.get d).catalog.map CatalogRow.wm) :
    d.modeOk w.mode = true ∧ d.topOk w.top = true := by
  simp only [Config.catalogOk, Bool.and_eq_true] at h
  obtain ⟨row, hrow, rfl⟩ := List.mem_map.mp hw
  have := List.all_eq_true.mp h.1.1 row hrow
  rwa [Bool.and_eq_true] at this

theorem wmDecode_mem {c : Config} {d : Dev} {s : BitVec 6} {w : WaveformMode}
    (h : wmDecode c d s = some w) : w ∈ (c.dev.get d).catalog.map CatalogRow.wm := by
  unfold wmDecode at h
  obtain ⟨row, hrow, rfl⟩ := Option.map_eq_some_iff.mp h
  exact List.mem_map.mpr ⟨row, List.mem_of_find?_eq_some hrow, rfl⟩

theorem psDecode_coded {c : Config} {d : Dev} {p : BitVec 4} {ps : Prescaler}
    (h : psDecode c d p = some ps) : (psCode c d ps).isSome = true := by
  unfold psDecode at h
  split at h
  · exact absurd h (by simp)
  · split at h
    · rename_i hs
      rw [← Option.some.inj h]
      exact hs
    · exact absurd h (by simp)

end Sys2Proof.Machine
end

