-- ==== Sys2Proof/Laws/Ops.lean ====
section
/-! SUPPORT. What the shared operations can do: the environment's moves, the micro-steps, a whole
command. -/

namespace Sys2Proof.Machine

/-! ### The environment -/

/-- Everything one move of the environment can do: nothing; an entry in the trace; a register write
with an entry; a change of `gie`; a reset. -/
theorem envMove_cases (s : State) (m : EnvMove) :
    envMove s m = s ∨
    (∃ e, seqAccess e = none ∧ envMove s m = s.log e) ∨
    (∃ r v e, seqAccess e = none ∧ envMove s m = (s.setReg r v).log e) ∨
    (∃ b, m = .setGie b ∧ envMove s m = { s with gie := b }) ∨
    (m = .reset ∧ envMove s m = s.resetNow) := by
  cases m with
  | tick d v =>
    simp only [envMove, counterMove]
    split
    · exact .inl rfl
    · exact .inr (.inr (.inl ⟨_, _, _, rfl, rfl⟩))
  | busRead a n =>
    simp only [envMove, handlerAccess]
    split
    · split
      · exact .inr (.inl ⟨_, rfl, rfl⟩)
      · exact .inr (.inl ⟨_, rfl, rfl⟩)
    · exact .inl rfl
  | busWrite a n v =>
    simp only [envMove, handlerAccess]
    split
    · split
      · exact .inr (.inr (.inl ⟨_, _, _, rfl, rfl⟩))
      · exact .inr (.inl ⟨_, rfl, rfl⟩)
    · exact .inl rfl
  | setGie b => exact .inr (.inr (.inr (.inl ⟨b, rfl, rfl⟩)))
  | reset => exact .inr (.inr (.inr (.inr ⟨rfl, rfl⟩)))

@[simp] theorem envMove_cfg (s : State) (m : EnvMove) : (envMove s m).cfg = s.cfg := by
  rcases envMove_cases s m with h | ⟨_, _, h⟩ | ⟨_, _, _, _, h⟩ | ⟨_, _, h⟩ | ⟨_, h⟩ <;> rw [h] <;> rfl

@[simp] theorem envMove_port (s : State) (m : EnvMove) : (envMove s m).port = s.port := by
  rcases envMove_cases s m with h | ⟨_, _, h⟩ | ⟨_, _, _, _, h⟩ | ⟨_, _, h⟩ | ⟨_, h⟩ <;> rw [h] <;> rfl

@[simp] theorem envMove_target (s : State) (m : EnvMove) : (envMove s m).target = s.target := by
  rcases envMove_cases s m with h | ⟨_, _, h⟩ | ⟨_, _, _, _, h⟩ | ⟨_, _, h⟩ | ⟨_, h⟩ <;> rw [h] <;> rfl

@[simp] theorem envMove_agenda (s : State) (m : EnvMove) : (envMove s m).agenda = s.agenda := by
  rcases envMove_cases s m with h | ⟨_, _, h⟩ | ⟨_, _, _, _, h⟩ | ⟨_, _, h⟩ | ⟨_, h⟩ <;> rw [h] <;> rfl

/-- No move of the environment touches an engine, ghost or sequencer register but by a reset
(R53, R133). -/
theorem envMove_inst (s : State) (m : EnvMove) :
    (envMove s m).inst = s.inst ∨ (m = .reset ∧ (envMove s m).inst = ⟨.reset, .reset, .reset⟩) := by
  rcases envMove_cases s m with h | ⟨_, _, h⟩ | ⟨_, _, _, _, h⟩ | ⟨_, _, h⟩ | ⟨hm, h⟩ <;> rw [h]
  · exact .inl rfl
  · exact .inl rfl
  · exact .inl rfl
  · exact .inl rfl
  · exact .inr ⟨hm, rfl⟩

theorem envMove_seqAccesses (s : State) (m : EnvMove) :
    seqAccesses (envMove s m).trace = seqAccesses s.trace := by
  rcases envMove_cases s m with h | ⟨_, he, h⟩ | ⟨_, _, _, he, h⟩ | ⟨_, _, h⟩ | ⟨_, h⟩ <;> rw [h]
  · simp [seqAccesses, he]
  · simp [seqAccesses, he]
  · rfl

theorem envMove_mem_wf {s : State} (m : EnvMove) (h : s.mem.wf = true) :
    (envMove s m).mem.wf = true := by
  rcases envMove_cases s m with e | ⟨_, _, e⟩ | ⟨_, _, _, _, e⟩ | ⟨_, _, e⟩ | ⟨_, e⟩ <;> rw [e]
  · exact h
  · exact h
  · exact Memory.writeReg_wf _ _ h
  · exact h
  · exact Memory.ofReset_wf _

/-- A property every move keeps, an interleaving point keeps. -/
theorem interleave_induct {P : State → Prop} (s : State)
    (hmove : ∀ (s : State) (m : EnvMove), P s → P (envMove s m))
    (h : P { s with agenda := s.agenda.tail }) : P (interleave s) := by
  unfold interleave
  cases ha : s.agenda with
  | nil =>
    rw [ha] at h
    have : ({ s with agenda := [] } : State) = s := by rw [← ha]
    rwa [List.tail_nil, this] at h
  | cons p ps =>
    rw [ha, List.tail_cons] at h
    have : ∀ (p : List EnvMove) (s : State), P s → P (p.foldl envMove s) := by
      intro p
      induction p with
      | nil => exact fun _ h => h
      | cons m p ih => exact fun s h => ih _ (hmove s m h)
    exact this p _ h

@[simp] theorem interleave_cfg (s : State) : (interleave s).cfg = s.cfg :=
  interleave_induct (P := fun t => t.cfg = s.cfg) s (fun t m h => by rw [envMove_cfg, h]) rfl

@[simp] theorem interleave_port (s : State) : (interleave s).port = s.port :=
  interleave_induct (P := fun t => t.port = s.port) s (fun t m h => by rw [envMove_port, h]) rfl

@[simp] theorem interleave_target (s : State) : (interleave s).target = s.target :=
  interleave_induct (P := fun t => t.target = s.target) s (fun t m h => by rw [envMove_target, h]) rfl

@[simp] theorem interleave_agenda (s : State) : (interleave s).agenda = s.agenda.tail :=
  interleave_induct (P := fun t => t.agenda = s.agenda.tail) s
    (fun t m h => by rw [envMove_agenda, h]) rfl

theorem interleave_inst (s : State) :
    (interleave s).inst = s.inst ∨ (interleave s).inst = ⟨.reset, .reset, .reset⟩ :=
  interleave_induct (P := fun t => t.inst = s.inst ∨ t.inst = ⟨.reset, .reset, .reset⟩) s
    (fun t m h => by
      rcases envMove_inst t m with e | ⟨_, e⟩
      · rwa [e]
      · exact .inr e) (.inl rfl)

theorem interleave_seqAccesses (s : State) :
    seqAccesses (interleave s).trace = seqAccesses s.trace :=
  interleave_induct (P := fun t => seqAccesses t.trace = seqAccesses s.trace) s
    (fun t m h => by rw [envMove_seqAccesses, h]) rfl

theorem interleave_mem_wf {s : State} (h : s.mem.wf = true) : (interleave s).mem.wf = true :=
  interleave_induct (P := fun t => t.mem.wf = true) s (fun _ m h => envMove_mem_wf m h) h

/-- The state with one interleaving point gone by. -/
def State.passPoint (s : State) : State := { s with agenda := s.agenda.tail }

@[simp] theorem State.passPoint_cfg (s : State) : s.passPoint.cfg = s.cfg := rfl
@[simp] theorem State.passPoint_inst (s : State) : s.passPoint.inst = s.inst := rfl
@[simp] theorem State.passPoint_mem (s : State) : s.passPoint.mem = s.mem := rfl
@[simp] theorem State.passPoint_gie (s : State) : s.passPoint.gie = s.gie := rfl
@[simp] theorem State.passPoint_port (s : State) : s.passPoint.port = s.port := rfl
@[simp] theorem State.passPoint_target (s : State) : s.passPoint.target = s.target := rfl
@[simp] theorem State.passPoint_agenda (s : State) : s.passPoint.agenda = s.agenda.tail := rfl
@[simp] theorem State.passPoint_trace (s : State) : s.passPoint.trace = s.trace := rfl
@[simp] theorem State.reg_passPoint (s : State) (r : Reg) : s.passPoint.reg r = s.reg r := rfl

/-- With no move to come, an interleaving point changes nothing but the agenda. -/
theorem interleave_quiet {s : State} (h : s.quiet = true) : interleave s = s.passPoint := by
  obtain ⟨cfg, inst, mem, gie, port, target, agenda, trace⟩ := s
  cases agenda with
  | nil => rfl
  | cons p ps =>
    simp only [State.quiet, List.all_cons, Bool.and_eq_true, List.isEmpty_iff] at h
    obtain ⟨rfl, -⟩ := h
    rfl

theorem quiet_of_agenda {s t : State} (ha : t.agenda = s.agenda) (h : s.quiet = true) :
    t.quiet = true := by rwa [State.quiet, ha]

theorem quiet_tail {s t : State} (ha : t.agenda = s.agenda.tail) (h : s.quiet = true) :
    t.quiet = true := by
  rw [State.quiet, List.all_eq_true] at *
  rw [ha]
  exact fun p hp => h p (List.mem_of_mem_tail hp)

/-! ### Micro-steps -/

/-- What a micro-step stores, given the temporary. -/
def MicroOp.store (t : Byte) : MicroOp → Option (Reg × Half)
  | .write r v => some (r, v)
  | .load _ => none
  | .storeOr r mask => some (r, busByte (t ||| mask))
  | .storeClear r mask => some (r, busByte (t &&& ~~~mask))
  | .storeBit r mask f => some (r, busByte (setBit t mask f))
  | .skip => none
  | .capture _ _ => none
  | .start => none
  | .connect _ _ => none

/-- What a micro-step makes of its instance. -/
def MicroOp.engine (s : State) (x : Inst) : MicroOp → Inst
  | .write _ _ => x
  | .load r => { x with t := (s.reg r).setWidth 8 }
  | .storeOr _ _ => x
  | .storeClear _ _ => x
  | .storeBit _ _ _ => x
  | .skip => x
  | .capture wm ps => x.captured wm ps
  | .start => x.started
  | .connect i m => x.connected i m

/-- The bus transaction of a micro-step, with its value. -/
def MicroOp.events (s : State) (t : Byte) : MicroOp → List BusEvent
  | .write r v => [.seqWrite r (fitReg r v)]
  | .load r => [.seqRead r (s.reg r)]
  | .storeOr r mask => [.seqWrite r (busByte (t ||| mask))]
  | .storeClear r mask => [.seqWrite r (busByte (t &&& ~~~mask))]
  | .storeBit r mask f => [.seqWrite r (busByte (setBit t mask f))]
  | .skip => []
  | .capture _ _ => []
  | .start => []
  | .connect _ _ => []

@[simp] theorem microStep_cfg (d : Dev) (s : State) (op : MicroOp) :
    (microStep d s op).cfg = s.cfg := by cases op <;> rfl
@[simp] theorem microStep_gie (d : Dev) (s : State) (op : MicroOp) :
    (microStep d s op).gie = s.gie := by cases op <;> rfl
@[simp] theorem microStep_port (d : Dev) (s : State) (op : MicroOp) :
    (microStep d s op).port = s.port := by cases op <;> rfl
@[simp] theorem microStep_target (d : Dev) (s : State) (op : MicroOp) :
    (microStep d s op).target = s.target := by cases op <;> rfl
@[simp] theorem microStep_agenda (d : Dev) (s : State) (op : MicroOp) :
    (microStep d s op).agenda = s.agenda := by cases op <;> rfl

theorem microStep_inst (d : Dev) (s : State) (op : MicroOp) :
    (microStep d s op).inst = s.inst.set d (op.engine s (s.inst.get d)) := by
  cases op <;> simp [microStep, busWrite, busLoad, MicroOp.engine]

theorem microStep_mem (d : Dev) (s : State) (op : MicroOp) :
    (microStep d s op).mem =
      match op.store (s.inst.get d).t with
      | some (r, v) => Memory.writeReg s.cfg s.mem r v
      | none => s.mem := by
  cases op <;> rfl

theorem microStep_trace (d : Dev) (s : State) (op : MicroOp) :
    (microStep d s op).trace = s.trace ++ op.events s (s.inst.get d).t := by
  cases op <;> simp [microStep, busWrite, busLoad, MicroOp.events]

@[simp] theorem seqStep_cfg (d : Dev) (op : MicroOp) (l : Bool) (s : State) :
    (seqStep d op l s).cfg = s.cfg := by simp [seqStep]
@[simp] theorem seqStep_gie (d : Dev) (op : MicroOp) (l : Bool) (s : State) :
    (seqStep d op l s).gie = s.gie := by simp [seqStep]
@[simp] theorem seqStep_port (d : Dev) (op : MicroOp) (l : Bool) (s : State) :
    (seqStep d op l s).port = s.port := by simp [seqStep]
@[simp] theorem seqStep_target (d : Dev) (op : MicroOp) (l : Bool) (s : State) :
    (seqStep d op l s).target = s.target := by simp [seqStep]
@[simp] theorem seqStep_agenda (d : Dev) (op : MicroOp) (l : Bool) (s : State) :
    (seqStep d op l s).agenda = s.agenda := by simp [seqStep]

theorem seqStep_inst (d : Dev) (op : MicroOp) (l : Bool) (s : State) :
    (seqStep d op l s).inst = s.inst.set d ((op.engine s (s.inst.get d)).advanced l) := by
  simp [seqStep, microStep_inst]

theorem seqStep_mem (d : Dev) (op : MicroOp) (l : Bool) (s : State) :
    (seqStep d op l s).mem =
      match op.store (s.inst.get d).t with
      | some (r, v) => Memory.writeReg s.cfg s.mem r v
      | none => s.mem := by
  simp only [seqStep, State.setInst_mem, microStep_mem]

theorem seqStep_trace (d : Dev) (op : MicroOp) (l : Bool) (s : State) :
    (seqStep d op l s).trace = s.trace ++ op.events s (s.inst.get d).t := by
  simp only [seqStep, State.setInst_trace, microStep_trace]

theorem engine_busy (s : State) (x : Inst) (op : MicroOp) : (op.engine s x).busy = x.busy := by
  cases op <;> rfl

theorem engine_cmd (s : State) (x : Inst) (op : MicroOp) : (op.engine s x).cmd = x.cmd := by
  cases op <;> rfl

theorem seqStep_mem_wf {s : State} (d : Dev) (op : MicroOp) (l : Bool) (h : s.mem.wf = true) :
    (seqStep d op l s).mem.wf = true := by
  rw [seqStep_mem]
  split
  · exact Memory.writeReg_wf _ _ h
  · exact h

/-! ### Whole commands -/

/-- A property that every interleaving point and every micro-step of a script keeps, the running of
the script keeps. -/
theorem runScript_induct {P : State → Prop} (d : Dev)
    (hi : ∀ s, P s → P (interleave s)) :
    ∀ (ops : List MicroOp) (s : State),
      (∀ op ∈ ops, ∀ (l : Bool) (s : State), P s → P (seqStep d op l s)) →
      P s → P (runScript d ops s) := by
  intro ops
  induction ops with
  | nil => exact fun s _ h => h
  | cons op ops ih =>
    intro s hop h
    simp only [runScript]
    split
    · exact ih _ (fun o ho => hop o (List.mem_cons_of_mem _ ho))
        (hop op List.mem_cons_self _ _ (hi s h))
    · exact hi s h

@[simp] theorem runScript_cfg (d : Dev) (ops : List MicroOp) (s : State) :
    (runScript d ops s).cfg = s.cfg :=
  runScript_induct (P := fun t => t.cfg = s.cfg) d (fun t h => by rw [interleave_cfg, h]) ops s
    (fun op _ l t h => by rw [seqStep_cfg, h]) rfl

@[simp] theorem runScript_port (d : Dev) (ops : List MicroOp) (s : State) :
    (runScript d ops s).port = s.port :=
  runScript_induct (P := fun t => t.port = s.port) d (fun t h => by rw [interleave_port, h]) ops s
    (fun op _ l t h => by rw [seqStep_port, h]) rfl

@[simp] theorem runScript_target (d : Dev) (ops : List MicroOp) (s : State) :
    (runScript d ops s).target = s.target :=
  runScript_induct (P := fun t => t.target = s.target) d (fun t h => by rw [interleave_target, h])
    ops s (fun op _ l t h => by rw [seqStep_target, h]) rfl

theorem runScript_mem_wf {d : Dev} {ops : List MicroOp} {s : State} (h : s.mem.wf = true) :
    (runScript d ops s).mem.wf = true :=
  runScript_induct (P := fun t => t.mem.wf = true) d (fun _ h => interleave_mem_wf h) ops s
    (fun op _ l _ h => seqStep_mem_wf d op l h) h

/-- After a command its sequencer is idle, whatever the environment did (R20, R129, R150). -/
theorem runScript_idle (d : Dev) (op : MicroOp) (ops : List MicroOp) (s : State)
    (hb : (s.inst.get d).busy = true) :
    ((runScript d (op :: ops) s).inst.get d).idle = true := by
  induction ops generalizing op s with
  | nil =>
    simp only [runScript]
    split
    · simp [seqStep_inst, Inst.advanced, Inst.idle]
    · rename_i hn
      rcases interleave_inst s with h | h
      · rw [h] at hn
        exact absurd hb hn
      · rw [h]
        cases d <;> rfl
  | cons op' ops ih =>
    rw [runScript]
    split
    · rename_i hb'
      refine ih op' _ ?_
      simp [seqStep_inst, Inst.advanced, engine_busy, hb']
    · rename_i hn
      rcases interleave_inst s with h | h
      · rw [h] at hn
        exact absurd hb hn
      · rw [h]
        cases d <;> rfl

/-- The micro-steps alone, with the interleaving points gone by. -/
def quietRun (d : Dev) : List MicroOp → State → State
  | [], s => s
  | op :: ops, s => quietRun d ops (seqStep d op ops.isEmpty s.passPoint)

/-- With no move to come, a command is its micro-steps alone. -/
theorem runScript_quiet (d : Dev) (ops : List MicroOp) (s : State) (hq : s.quiet = true)
    (hb : (s.inst.get d).busy = true) : runScript d ops s = quietRun d ops s := by
  induction ops generalizing s with
  | nil => rfl
  | cons op ops ih =>
    simp only [runScript, quietRun, interleave_quiet hq]
    rw [if_pos (by simpa using hb)]
    cases ops with
    | nil => rfl
    | cons op' ops =>
      refine ih _ (quiet_tail (by simp) hq) ?_
      simp [seqStep_inst, Inst.advanced, engine_busy, hb]

/-! ### Acceptance -/

@[simp] theorem State.accept_cfg (s : State) (i : Instr) : (s.accept i).cfg = s.cfg := rfl
@[simp] theorem State.accept_mem (s : State) (i : Instr) : (s.accept i).mem = s.mem := rfl
@[simp] theorem State.accept_gie (s : State) (i : Instr) : (s.accept i).gie = s.gie := rfl
@[simp] theorem State.accept_port (s : State) (i : Instr) : (s.accept i).port = s.port := rfl
@[simp] theorem State.accept_target (s : State) (i : Instr) : (s.accept i).target = s.target := rfl
@[simp] theorem State.accept_agenda (s : State) (i : Instr) : (s.accept i).agenda = s.agenda := rfl
@[simp] theorem State.accept_trace (s : State) (i : Instr) : (s.accept i).trace = s.trace := rfl
@[simp] theorem State.reg_accept (s : State) (i : Instr) (r : Reg) : (s.accept i).reg r = s.reg r := rfl
@[simp] theorem State.accept_inst (s : State) (i : Instr) :
    (s.accept i).inst =
      s.inst.set s.target { s.inst.get s.target with cmd := encode i, busy := true, seq := 0 } := rfl

/-- Everything that can become of a command presented to the target instance. -/
theorem perform_cases (i : Instr) (hz : Option Fault) (ops : List MicroOp) (s : State) :
    (∃ r, legality s.cfg s.target (s.inst.get s.target).phase i = some r ∧
      perform i hz ops s = .refused r) ∨
    (legality s.cfg s.target (s.inst.get s.target).phase i = none ∧ guardFails i = true ∧
      perform i hz ops s = .next (s.passOver i)) ∨
    (∃ f, legality s.cfg s.target (s.inst.get s.target).phase i = none ∧ guardFails i = false ∧
      hz = some f ∧ perform i hz ops s = .fault f) ∨
    (legality s.cfg s.target (s.inst.get s.target).phase i = none ∧ guardFails i = false ∧
      hz = none ∧ perform i hz ops s = .next (runScript s.target ops (s.accept i))) := by
  unfold perform dispose
  cases hl : legality s.cfg s.target (s.inst.get s.target).phase i with
  | some r => exact .inl ⟨r, rfl, rfl⟩
  | none =>
    cases hg : guardFails i with
    | true => exact .inr (.inl ⟨rfl, rfl, rfl⟩)
    | false =>
      cases hz with
      | some f => exact .inr (.inr (.inl ⟨f, rfl, rfl, rfl, rfl⟩))
      | none => exact .inr (.inr (.inr ⟨rfl, rfl, rfl, rfl⟩))

/-- A legal command of a valid channel is performed, whatever the environment does. -/
theorem perform_performed {i : Instr} {hz : Option Fault} {ops : List MicroOp} {s : State}
    (hl : legality s.cfg s.target (s.inst.get s.target).phase i = none)
    (hg : guardFails i = false) (hh : hz = none) :
    perform i hz ops s = .next (runScript s.target ops (s.accept i)) := by
  unfold perform dispose
  rw [hl, hg, hh]
  rfl

/-- A legal command of a valid channel with no move to come is its micro-steps alone. -/
theorem perform_quiet {i : Instr} {hz : Option Fault} {ops : List MicroOp} {s : State}
    (hl : legality s.cfg s.target (s.inst.get s.target).phase i = none)
    (hg : guardFails i = false) (hh : hz = none) (hq : s.quiet = true) :
    perform i hz ops s = .next (quietRun s.target ops (s.accept i)) := by
  rw [perform_performed hl hg hh]
  exact congrArg _ (runScript_quiet _ _ _ (quiet_of_agenda rfl hq) (by simp))

/-- A legal command of a channel out of range is a silent no-op (R112). -/
theorem perform_outOfRange {i : Instr} {hz : Option Fault} {ops : List MicroOp} {s : State}
    (hl : legality s.cfg s.target (s.inst.get s.target).phase i = none)
    (hg : guardFails i = true) : perform i hz ops s = .next (s.passOver i) := by
  unfold perform dispose
  rw [hl, hg]
  rfl

/-- Every command is performed by the shared operation, with its own micro-steps. -/
theorem exec_eq_perform (i : Instr) (s : State) :
    exec i s = perform i (hazardOf i s.target s) (scriptOf i s.target s) s := by
  cases i <;> rfl

end Sys2Proof.Machine
end

