-- ==== Sys2Proof/Laws/PerInstr.lean ====
section
/-! SUPPORT. Laws stated for each command of the opcode table, one lemma for each constructor. -/

namespace Sys2Proof.Laws

/-! ### The encoder meets its row of the opcode table (R76, R77, R84) -/

/-- The row of a command. -/
def rowOf : Instr → OpcodeRow
  | .config _ _ => ⟨.config, 0x10000000, 0xFFFFC0F0⟩
  | .activate _ _ => ⟨.activate, 0x20000000, 0xFF7F0000⟩
  | .actch _ _ _ _ => ⟨.actch, 0x30000000, 0xF07F0000⟩
  | .actpin _ => ⟨.actpin, 0x40000000, 0xF3FFFFFF⟩
  | .updtop _ => ⟨.updtop, 0x50000000, 0xFFFF0000⟩
  | .updcmp _ _ => ⟨.updcmp, 0x60000000, 0xF3FF0000⟩

/-- The encoded word has the fixed bits of the command's row. -/
def EncodedInRow.Statement (i : Instr) : Prop :=
  rowOf i ∈ opcodeTable ∧ encode i &&& (rowOf i).mask = (rowOf i).pattern

theorem EncodedInRow.config (wmid : BitVec 6) (psid : BitVec 4) :
    EncodedInRow.Statement (.config wmid psid) := by
  refine ⟨by simp [rowOf, opcodeTable], ?_⟩
  ext i hi
  simp only [encode, rowOf]
  interval_cases i <;> simp

theorem EncodedInRow.activate (ie : Bool) (val : Half) :
    EncodedInRow.Statement (.activate ie val) := by
  refine ⟨by simp [rowOf, opcodeTable], ?_⟩
  ext i hi
  simp only [encode, rowOf]
  interval_cases i <;> simp

theorem EncodedInRow.actch (ch : Channel) (com : BitVec 2) (ie : Bool) (val : Half) :
    EncodedInRow.Statement (.actch ch com ie val) := by
  refine ⟨by simp [rowOf, opcodeTable], ?_⟩
  ext i hi
  simp only [encode, rowOf]
  interval_cases i <;> simp

theorem EncodedInRow.actpin (ch : Channel) : EncodedInRow.Statement (.actpin ch) := by
  refine ⟨by simp [rowOf, opcodeTable], ?_⟩
  ext i hi
  simp only [encode, rowOf]
  interval_cases i <;> simp

theorem EncodedInRow.updtop (val : Half) : EncodedInRow.Statement (.updtop val) := by
  refine ⟨by simp [rowOf, opcodeTable], ?_⟩
  ext i hi
  simp only [encode, rowOf]
  interval_cases i <;> simp

theorem EncodedInRow.updcmp (ch : Channel) (val : Half) :
    EncodedInRow.Statement (.updcmp ch val) := by
  refine ⟨by simp [rowOf, opcodeTable], ?_⟩
  ext i hi
  simp only [encode, rowOf]
  interval_cases i <;> simp

end Sys2Proof.Laws
end

