-- ==== Sys2Proof/Laws/Quiet.lean ====
section
/-! SUPPORT. Laws of a command during which the environment makes no move: its end, its frame, and
the zero writes of ACTIVATE. -/

namespace Sys2Proof

/-! ### The parts of a well-formed configuration -/

theorem Config.wf_addrOk {c : Config} (h : c.wf = true) : c.addrOk = true := by
  unfold Config.wf at h
  rw [Bool.and_eq_true] at h
  exact h.1

theorem Config.wf_dev {c : Config} (h : c.wf = true) (d : Dev) :
    c.catalogOk d = true ∧ (c.dev.get d).bitsOk = true ∧ (c.dev.get d).codesOk = true ∧
      (c.dev.get d).zeroOrderOk = true := by
  unfold Config.wf at h
  rw [Bool.and_eq_true] at h
  have := List.all_eq_true.mp h.2 d (by cases d <;> decide)
  simpa [Bool.and_eq_true, and_assoc] using this

namespace Machine

/-! ### Acceptance -/

/-- A command with a channel in range passes the guard (R62). -/
theorem guardFails_of_slot {i : Instr} {ch : Channel} {k : Slot} (h : channelOf i = some ch)
    (hs : slot ch = some k) : guardFails i = false := by
  simp [guardFails, h, outOfRange_of_slot hs]

/-- A legal command of a valid channel is performed, whatever the environment does. -/
theorem exec_performed {i : Instr} {s : State}
    (hl : legality s.cfg s.target (s.inst.get s.target).phase i = none)
    (hg : guardFails i = false) (hh : hazardOf i s.target s = none) :
    exec i s = .next (runScript s.target (scriptOf i s.target s) (s.accept i)) := by
  rw [exec_eq_perform, perform_performed hl hg hh]

/-- With no move to come, it is its micro-steps alone. -/
theorem exec_quiet {i : Instr} {s : State}
    (hl : legality s.cfg s.target (s.inst.get s.target).phase i = none)
    (hg : guardFails i = false) (hh : hazardOf i s.target s = none) (hq : s.quiet = true) :
    exec i s = .next (quietRun s.target (scriptOf i s.target s) (s.accept i)) := by
  rw [exec_eq_perform, perform_quiet hl hg hh hq]

/-- Every next state of a command is its micro-steps' or the passing over of a channel out of
range. -/
theorem exec_next_cases {i : Instr} {s t : State} (h : exec i s = .next t) :
    legality s.cfg s.target (s.inst.get s.target).phase i = none ∧
      ((guardFails i = true ∧ t = s.passOver i) ∨
        (guardFails i = false ∧ hazardOf i s.target s = none ∧
          t = runScript s.target (scriptOf i s.target s) (s.accept i))) := by
  rw [exec_eq_perform] at h
  rcases perform_cases i (hazardOf i s.target s) (scriptOf i s.target s) s with
    ⟨_, _, e⟩ | ⟨hl, hg, e⟩ | ⟨_, _, _, _, e⟩ | ⟨hl, hg, hz, e⟩ <;> rw [e] at h
  · cases h
  · exact ⟨hl, .inl ⟨hg, (Host.Outcome.next.inj h).symm⟩⟩
  · cases h
  · exact ⟨hl, .inr ⟨hg, hz, (Host.Outcome.next.inj h).symm⟩⟩

/-- The same with no move to come. -/
theorem exec_next_quiet {i : Instr} {s t : State} (h : exec i s = .next t)
    (hq : s.quiet = true) :
    legality s.cfg s.target (s.inst.get s.target).phase i = none ∧
      ((guardFails i = true ∧ t = s.passOver i) ∨
        (guardFails i = false ∧ hazardOf i s.target s = none ∧
          t = quietRun s.target (scriptOf i s.target s) (s.accept i))) := by
  obtain ⟨hl, h | ⟨hg, hz, rfl⟩⟩ := exec_next_cases h
  · exact ⟨hl, .inl h⟩
  · refine ⟨hl, .inr ⟨hg, hz, ?_⟩⟩
    exact runScript_quiet _ _ _ (quiet_of_agenda rfl hq) (by simp)

@[simp] theorem State.passOver_cfg (s : State) (i : Instr) : (s.passOver i).cfg = s.cfg := rfl
@[simp] theorem State.passOver_mem (s : State) (i : Instr) : (s.passOver i).mem = s.mem := rfl
@[simp] theorem State.passOver_gie (s : State) (i : Instr) : (s.passOver i).gie = s.gie := rfl
@[simp] theorem State.passOver_port (s : State) (i : Instr) : (s.passOver i).port = s.port := rfl
@[simp] theorem State.passOver_target (s : State) (i : Instr) : (s.passOver i).target = s.target := rfl
@[simp] theorem State.passOver_agenda (s : State) (i : Instr) : (s.passOver i).agenda = s.agenda := rfl
@[simp] theorem State.passOver_trace (s : State) (i : Instr) : (s.passOver i).trace = s.trace := rfl
@[simp] theorem State.reg_passOver (s : State) (i : Instr) (r : Reg) :
    (s.passOver i).reg r = s.reg r := rfl
@[simp] theorem State.passOver_inst (s : State) (i : Instr) :
    (s.passOver i).inst =
      s.inst.set s.target { s.inst.get s.target with cmd := encode i, busy := false, seq := 0 } := rfl

/-! ### Registers and bytes across a command -/

theorem seqStep_reg (d : Dev) (op : MicroOp) (l : Bool) (s : State) (r : Reg) :
    (seqStep d op l s).reg r =
      match op.store (s.inst.get d).t with
      | some (r', v) => (s.setReg r' v).reg r
      | none => s.reg r := by
  unfold State.reg
  rw [seqStep_mem, seqStep_cfg]
  cases op <;> rfl

theorem seqStep_bytes (d : Dev) (op : MicroOp) (l : Bool) (s : State) (a : Nat)
    (h : ∀ r ∈ op.writes, occupies s.cfg r a = false) :
    (seqStep d op l s).mem.read a = s.mem.read a := by
  rw [seqStep_mem]
  cases op <;> simp only [MicroOp.store] <;>
    first | rfl | exact Memory.read_writeReg_outside _ _ _ _ (h _ (by simp [MicroOp.writes]))

@[simp] theorem quietRun_cfg (d : Dev) (ops : List MicroOp) (s : State) :
    (quietRun d ops s).cfg = s.cfg := by
  induction ops generalizing s with
  | nil => rfl
  | cons o ops ih => simp [quietRun, ih]

@[simp] theorem quietRun_gie (d : Dev) (ops : List MicroOp) (s : State) :
    (quietRun d ops s).gie = s.gie := by
  induction ops generalizing s with
  | nil => rfl
  | cons o ops ih => simp [quietRun, ih]

@[simp] theorem quietRun_port (d : Dev) (ops : List MicroOp) (s : State) :
    (quietRun d ops s).port = s.port := by
  induction ops generalizing s with
  | nil => rfl
  | cons o ops ih => simp [quietRun, ih]

@[simp] theorem quietRun_target (d : Dev) (ops : List MicroOp) (s : State) :
    (quietRun d ops s).target = s.target := by
  induction ops generalizing s with
  | nil => rfl
  | cons o ops ih => simp [quietRun, ih]

@[simp] theorem quietRun_agenda (d : Dev) (ops : List MicroOp) (s : State) :
    (quietRun d ops s).agenda = s.agenda.drop ops.length := by
  induction ops generalizing s with
  | nil => rfl
  | cons o ops ih => simp [quietRun, ih, List.drop_tail]

theorem quietRun_quiet (d : Dev) (ops : List MicroOp) {s : State} (h : s.quiet = true) :
    (quietRun d ops s).quiet = true := by
  rw [State.quiet, List.all_eq_true] at *
  rw [quietRun_agenda]
  exact fun p hp => h p (List.mem_of_mem_drop hp)

theorem quietRun_others (d : Dev) (ops : List MicroOp) (s : State) {d' : Dev} (h : d' ≠ d) :
    (quietRun d ops s).inst.get d' = s.inst.get d' := by
  induction ops generalizing s with
  | nil => rfl
  | cons o ops ih => simp [quietRun, ih, seqStep_inst, PerDev.get_set_ne _ _ h]

theorem quietRun_bytes (d : Dev) (ops : List MicroOp) (s : State) (a : Nat)
    (h : ∀ r ∈ ops.flatMap MicroOp.writes, occupies s.cfg r a = false) :
    (quietRun d ops s).mem.read a = s.mem.read a := by
  induction ops generalizing s with
  | nil => rfl
  | cons o ops ih =>
    simp only [List.flatMap_cons, List.mem_append] at h
    rw [quietRun, ih _ (by simpa using fun r hr => h r (.inr hr))]
    exact seqStep_bytes _ _ _ _ _ (fun r hr => h r (.inl hr))

/-- A register no micro-step writes is kept. -/
theorem quietRun_reg (d : Dev) (ops : List MicroOp) (s : State) (had : s.cfg.addrOk = true)
    {r : Reg} (h : r ∉ ops.flatMap MicroOp.writes) : (quietRun d ops s).reg r = s.reg r := by
  induction ops generalizing s with
  | nil => rfl
  | cons o ops ih =>
    simp only [List.flatMap_cons, List.mem_append, not_or] at h
    rw [quietRun, ih _ (by simpa using had) h.2, seqStep_reg]
    have h1 := h.1
    cases o <;> simp only [MicroOp.store, State.reg_passPoint] <;>
      exact State.reg_setReg_ne (s := s.passPoint) had (by simpa [MicroOp.writes] using h1) _

/-- A register a command's micro-steps do not write is kept by the command. -/
theorem quietRun_accept_reg {ops : List MicroOp} {s : State} {i : Instr}
    (had : s.cfg.addrOk = true) {r : Reg} (h : r ∉ ops.flatMap MicroOp.writes) :
    (quietRun s.target ops (s.accept i)).reg r = s.reg r :=
  quietRun_reg s.target ops (s.accept i) had h

/-- The frame of a command with no move to come. -/
theorem untouched_quietRun {ops : List MicroOp} {s : State} {i : Instr} {W : List Reg}
    (hW : ∀ r ∈ ops.flatMap MicroOp.writes, r ∈ W) :
    Untouched s (quietRun s.target ops (s.accept i)) W where
  cfg := by simp
  gie := by simp
  port := by simp
  target := by simp
  others := fun d hd => by simp [quietRun_others _ _ _ hd, PerDev.get_set_ne _ _ hd]
  bytes := fun a ha => quietRun_bytes _ _ _ _ (fun r hr => ha r (hW r hr))

/-- A register that reads as before has its bytes as before. -/
theorem read_of_reg {s t : State} (hc : t.cfg = s.cfg) {r : Reg} (h : t.reg r = s.reg r) {a : Nat}
    (ha : occupies s.cfg r a = true) : t.mem.read a = s.mem.read a := by
  simp only [occupies, decide_eq_true_eq] at ha
  simp only [State.reg, Memory.readReg, hc] at h
  by_cases h2 : r.bytes = 2
  · simp only [h2, if_true] at h ha
    have hh := congrArg (fun v : Half => v.extractLsb' 0 8) h
    have hg := congrArg (fun v : Half => v.extractLsb' 8 8) h
    simp only [BitVec.extractLsb'_append_eq_right, BitVec.extractLsb'_append_eq_left] at hh hg
    rcases Nat.eq_or_lt_of_le ha.1 with e | e
    · rw [← e]
      exact hh
    · have : a = (s.cfg.addr r).toNat + 1 := by omega
      rw [this]
      exact hg
  · have hb : r.bytes = 1 := by
      have h1 := Reg.one_le_bytes r
      have : r.bytes ≤ 2 := by
        rcases r with d | d | d | d | ⟨d, i⟩ | _ | p | p
        all_goals first | (cases d <;> simp [Reg.bytes, Dev.res]) | simp [Reg.bytes]
      omega
    rw [hb] at ha
    simp only [h2, if_false] at h
    have e : a = (s.cfg.addr r).toNat := by omega
    subst e
    simpa using congrArg (fun v : Half => v.setWidth 8) h

/-- Two commands that may write the same registers and leave them with the same values leave the
same bytes. -/
theorem Untouched.read_eq {s t u : State} {W : List Reg} (h1 : Untouched s t W)
    (h2 : Untouched t u W) (hr : ∀ r ∈ W, u.reg r = t.reg r) (a : Nat) :
    u.mem.read a = t.mem.read a := by
  by_cases h : ∀ r ∈ W, occupies s.cfg r a = false
  · exact h2.bytes a (by rw [h1.cfg]; exact h)
  · push Not at h
    obtain ⟨r, hr1, hr2⟩ := h
    exact read_of_reg h2.cfg (hr r hr1) (by rw [h1.cfg]; simpa using hr2)

/-! ### The zero writes of ACTIVATE -/

theorem zeroScript_eq (c : DevConfig) (d : Dev) :
    zeroScript c d = (c.zeroOrder.filterMap (Csr.on d)).map fun r => MicroOp.write r 0 := by
  unfold zeroScript
  induction c.zeroOrder with
  | nil => rfl
  | cons n l ih =>
    simp only [List.filterMap_cons, ih]
    cases h : n.on d <;> simp

/-- Whatever their order, the zero writes reach CTRLA, CTRLB, COUNT and IMASK (R103). -/
theorem mem_zeroOrder {c : DevConfig} (h : c.zeroOrderOk = true) (d : Dev) (r : Reg) :
    r ∈ c.zeroOrder.filterMap (Csr.on d) ↔ r ∈ [Reg.ctrlA d, .ctrlB d, .count d, .imask d] := by
  have hp := List.isPerm_iff.mp h
  rw [(hp.filterMap (Csr.on d)).mem_iff]
  simp [Csr.on]

/-- A run of zero writes leaves those registers zero and every other one as it was. -/
theorem quietRun_zeroWrites (d : Dev) (rs : List Reg) (rest : List MicroOp) (hrest : rest ≠ [])
    (s : State) (had : s.cfg.addrOk = true) :
    ∃ s1 : State,
      quietRun d (rs.map (fun r => MicroOp.write r 0) ++ rest) s = quietRun d rest s1 ∧
      s1.cfg = s.cfg ∧ (∀ r, s1.reg r = if r ∈ rs then 0 else s.reg r) ∧
      s1.inst.get d = { s.inst.get d with seq := (s1.inst.get d).seq } ∧ s1.target = s.target := by
  induction rs generalizing s with
  | nil => exact ⟨s, rfl, rfl, by simp, rfl, rfl⟩
  | cons r rs ih =>
    have hne : (rs.map (fun r => MicroOp.write r 0) ++ rest).isEmpty = false := by
      cases rs <;> simp [hrest]
    obtain ⟨s1, h1, h2, h3, h4, h5⟩ :=
      ih (seqStep d (.write r 0) false s.passPoint) (by simpa using had)
    refine ⟨s1, ?_, by simpa using h2, ?_, ?_, by simpa using h5⟩
    · simp only [List.map_cons, List.cons_append, quietRun, hne, h1]
    · intro r'
      rw [h3]
      by_cases hr : r' ∈ rs
      · simp [hr]
      · rcases eq_or_ne r' r with rfl | hn
        · simp only [hr, seqStep_reg, MicroOp.store, State.reg_setReg_same, List.mem_cons, true_or,
            if_true, if_false]
          exact fitReg_zero _
        · simp [hr, hn, seqStep_reg, MicroOp.store,
            State.reg_setReg_ne (s := s.passPoint) (by simpa using had) hn]
    · rw [h4]
      simp [seqStep_inst, MicroOp.engine, Inst.advanced]

/-- A ceiling register is none of the control, count and mask registers. -/
theorem topReg_ne {d : Dev} {w : WaveformMode} {r : Reg} (hok : d.topOk w.top = true)
    (h : topReg d w = some r) :
    r ≠ .ctrlA d ∧ r ≠ .ctrlB d ∧ r ≠ .count d ∧ r ≠ .imask d ∧ (r = .compare d 0 ∨ r = .ceil) := by
  unfold topReg at h
  cases ht : w.top with
  | fixed c => simp [ht] at h
  | reg n =>
    rw [ht] at h hok
    simp only [Dev.topOk, Bool.or_eq_true, Bool.and_eq_true, beq_iff_eq] at hok
    rcases hok with rfl | ⟨rfl, rfl⟩ <;> simp [Csr.on] at h <;> subst h <;> simp

end Machine

end Sys2Proof
end

