-- ==== Sys2Proof/Laws/Scripts.lean ====
section
/-! SUPPORT. Laws of the micro-steps of each command, and of interleaving points at which there is no
reset or only the counters move. -/

namespace Sys2Proof.Machine

/-! ### The micro-steps of a command -/

/-- No command has more than the 11 micro-steps of ACTIVATE (R129). -/
theorem scriptOf_length_le {i : Instr} {d : Dev} {s : State} (hc : s.cfg.wf = true) :
    (scriptOf i d s).length ≤ 11 := by
  cases i with
  | config w p => simp only [scriptOf, configScript]; split <;> simp
  | activate ie v =>
    have hz := List.isPerm_iff.mp (Config.wf_dev hc d).2.2.2
    have h4 : (s.dev d).zeroOrder.length = 4 := hz.length_eq
    have := List.length_filterMap_le (Csr.on d) (s.dev d).zeroOrder
    simp [scriptOf, activateScript, zeroScript_eq]
    omega
  | actch ch m ie v => simp only [scriptOf, actchScript]; split <;> simp
  | actpin ch => simp only [scriptOf, actpinScript]; split <;> simp
  | updtop v => simp [scriptOf, updtopScript]
  | updcmp ch v => simp only [scriptOf, updcmpScript]; split <;> simp

/-- A legal command that passes the channel guard has a micro-step. -/
theorem scriptOf_ne_nil {i : Instr} {s : State}
    (hl : legality s.cfg s.target (s.inst.get s.target).phase i = none)
    (hg : guardFails i = false) : scriptOf i s.target s ≠ [] := by
  cases i with
  | config w p =>
    have hw := ((legality_eq_none_iff _ _ _ _).mp hl).2
    simp only [Instr.wf, ← wmDecode_isSome_iff, ← psDecode_isSome_iff, Bool.and_eq_true] at hw
    obtain ⟨⟨_, h1⟩, h2⟩ := hw
    obtain ⟨a, ha⟩ := Option.isSome_iff_exists.mp h1
    obtain ⟨b, hb⟩ := Option.isSome_iff_exists.mp h2
    simp [scriptOf, configScript, ha, hb]
  | activate ie v => simp [scriptOf, activateScript]
  | actch ch m ie v =>
    obtain ⟨k, hk⟩ := slot_isSome_of_inRange (ch := ch) hg
    simp [scriptOf, actchScript, hk]
  | actpin ch =>
    obtain ⟨k, hk⟩ := slot_isSome_of_inRange (ch := ch) hg
    simp [scriptOf, actpinScript, hk]
  | updtop v => simp [scriptOf, updtopScript]
  | updcmp ch v =>
    obtain ⟨k, hk⟩ := slot_isSome_of_inRange (ch := ch) hg
    simp [scriptOf, updcmpScript, hk]

/-- Only CONFIG captures, and only ACTIVATE makes the phase RUNNING (R17). -/
theorem scriptOf_phase_ops (i : Instr) (s : State) (op : MicroOp)
    (h : op ∈ scriptOf i s.target s) :
    (∀ wm ps, op = .capture wm ps → isConfig i = true) ∧ (op = .start → isActivate i = true) := by
  cases i with
  | config w p =>
    simp only [scriptOf, configScript] at h
    split at h <;> simp at h
    subst h
    simp [isConfig]
  | activate ie v =>
    refine ⟨?_, fun _ => rfl⟩
    rintro wm ps rfl
    simp [scriptOf, activateScript, zeroScript_eq, ceilingOp] at h
    split at h <;> cases h
  | actch ch m ie v =>
    simp only [scriptOf, actchScript] at h
    split at h <;> simp at h
    rcases h with rfl | rfl | rfl | rfl | rfl | rfl <;> simp
  | actpin ch =>
    simp only [scriptOf, actpinScript] at h
    split at h <;> simp at h
    rcases h with rfl | rfl | rfl | rfl <;> simp
  | updtop v =>
    simp [scriptOf, updtopScript, ceilingOp] at h
    subst h
    split <;> simp
  | updcmp ch v =>
    simp only [scriptOf, updcmpScript] at h
    split at h <;> simp at h
    subst h
    simp

/-- The ceiling register of an instance is its own. -/
theorem topReg_owner {d : Dev} {w : WaveformMode} {r : Reg} (h : topReg d w = some r) :
    ownerOf r = some d := by
  unfold topReg at h
  cases ht : w.top with
  | fixed c => simp [ht] at h
  | reg n =>
    rw [ht] at h
    cases n <;> simp only [Csr.on, Option.some.injEq] at h
    all_goals first | (subst h; rfl) | (cases d <;> simp at h; subst h; rfl)

/-- A command writes registers of its own instance; ACTPIN alone writes port registers (R30, R39). -/
theorem scriptOf_writes {i : Instr} {s : State} {r : Reg}
    (h : r ∈ (scriptOf i s.target s).flatMap MicroOp.writes) :
    ownerOf r = some s.target ∨ (isActpin i = true ∧ ownerOf r = none) := by
  cases i with
  | config w p =>
    simp only [scriptOf, configScript] at h
    split at h <;> simp [MicroOp.writes] at h
  | activate ie v =>
    left
    simp only [scriptOf, activateScript, zeroScript_eq, ceilingOp, List.flatMap_append,
      List.mem_append, List.flatMap_map, MicroOp.writes] at h
    rcases h with h | h
    · simp only [List.mem_flatMap, List.mem_singleton, List.mem_filterMap] at h
      obtain ⟨r', ⟨n, _, hn⟩, rfl⟩ := h
      cases n <;> simp only [Csr.on, Option.some.injEq] at hn
      all_goals first | (subst hn; rfl) | skip
      cases hd : s.target <;> simp [hd] at hn
      subst hn
      rfl
    · split at h
      · rename_i r' hr'
        simp [MicroOp.writes] at h
        rcases h with rfl | rfl | rfl | rfl
        · rfl
        · exact topReg_owner hr'
        · rfl
        · rfl
      · simp [MicroOp.writes] at h
        rcases h with rfl | rfl | rfl <;> rfl
  | actch ch m ie v =>
    left
    simp only [scriptOf, actchScript] at h
    split at h <;> simp [MicroOp.writes] at h
    rcases h with rfl | rfl | rfl <;> rfl
  | actpin ch =>
    right
    simp only [scriptOf, actpinScript] at h
    split at h <;> simp [MicroOp.writes] at h
    rcases h with rfl | rfl <;> exact ⟨rfl, rfl⟩
  | updtop v =>
    left
    simp only [scriptOf, updtopScript, ceilingOp] at h
    split at h
    · rename_i r' hr'
      simp [MicroOp.writes] at h
      subst h
      exact topReg_owner hr'
    · simp [MicroOp.writes] at h
  | updcmp ch v =>
    left
    simp only [scriptOf, updcmpScript] at h
    split at h <;> simp [MicroOp.writes] at h
    subst h
    rfl

/-- A command reads CTRLA, IMASK and port registers only (R44). -/
theorem scriptOf_loads {i : Instr} {s : State} {op : MicroOp} (h : op ∈ scriptOf i s.target s) :
    ∀ r ∈ op.loads, isReadByBlock r = true := by
  cases i with
  | config w p =>
    simp only [scriptOf, configScript] at h
    split at h <;> simp at h
    subst h
    simp [MicroOp.loads]
  | activate ie v =>
    simp [scriptOf, activateScript, zeroScript_eq, ceilingOp] at h
    rcases h with ⟨_, _, rfl⟩ | rfl | rfl | rfl | rfl | rfl | rfl | rfl
    all_goals simp [MicroOp.loads, isReadByBlock]
    cases topReg s.target (s.inst.get s.target).wm <;> simp
  | actch ch m ie v =>
    simp only [scriptOf, actchScript] at h
    split at h <;> simp at h
    rcases h with rfl | rfl | rfl | rfl | rfl | rfl <;> simp [MicroOp.loads, isReadByBlock]
  | actpin ch =>
    simp only [scriptOf, actpinScript] at h
    split at h <;> simp at h
    rcases h with rfl | rfl | rfl | rfl <;> simp [MicroOp.loads, isReadByBlock]
  | updtop v =>
    simp [scriptOf, updtopScript, ceilingOp] at h
    subst h
    split <;> simp [MicroOp.loads]
  | updcmp ch v =>
    simp only [scriptOf, updcmpScript] at h
    split at h <;> simp at h
    subst h
    simp [MicroOp.loads]

/-! ### Interleaving points -/

/-- Without a reset an interleaving point keeps every engine, ghost and sequencer register. -/
theorem interleave_noReset {s : State} (h : s.noReset = true) :
    (interleave s).inst = s.inst ∧ (interleave s).noReset = true := by
  constructor
  · cases ha : s.agenda with
    | nil => simp [interleave, ha]
    | cons p ps =>
      simp only [interleave, ha]
      have hp : ∀ m ∈ p, isReset m = false := by
        simp only [State.noReset, ha, List.all_cons, Bool.and_eq_true, List.all_eq_true,
          Bool.not_eq_true'] at h
        exact h.1
      have : ∀ (p : List EnvMove) (s : State), (∀ m ∈ p, isReset m = false) →
          (p.foldl envMove s).inst = s.inst := by
        intro p
        induction p with
        | nil => exact fun _ _ => rfl
        | cons m p ih =>
          intro s hm
          simp only [List.foldl_cons]
          rw [ih _ (fun m' h' => hm m' (by simp [h']))]
          rcases envMove_inst s m with e | ⟨rfl, _⟩
          · exact e
          · exact absurd (hm .reset (by simp)) (by decide)
      rw [this _ _ hp]
  · rw [State.noReset, List.all_eq_true] at *
    rw [interleave_agenda]
    exact fun p hp => h p (List.mem_of_mem_tail hp)

/-- Where only the counters move, an interleaving point changes COUNT registers at most. -/
theorem interleave_ticks {a : State} (ht : a.ticksOnly = true) (had : a.cfg.addrOk = true) :
    (interleave a).inst = a.inst ∧
      (∀ r, (∀ d, r ≠ .count d) → (interleave a).reg r = a.reg r) ∧
      (interleave a).ticksOnly = true := by
  have fold : ∀ (p : List EnvMove) (a : State), (∀ m ∈ p, isTick m = true) →
      a.cfg.addrOk = true → (p.foldl envMove a).inst = a.inst ∧
        ∀ r, (∀ d, r ≠ .count d) → (p.foldl envMove a).reg r = a.reg r := by
    intro p
    induction p with
    | nil => exact fun a _ _ => ⟨rfl, fun _ _ => rfl⟩
    | cons m p ih =>
      intro a hm had
      have h1 := ih (envMove a m) (fun m' h => hm m' (by simp [h])) (by rw [envMove_cfg]; exact had)
      have h0 := hm m (by simp)
      cases m <;> simp [isTick] at h0
      rename_i d v
      have h2 : (envMove a (.tick d v)).inst = a.inst ∧
          ∀ r, (∀ d, r ≠ .count d) → (envMove a (.tick d v)).reg r = a.reg r := by
        simp only [envMove, counterMove]
        split
        · exact ⟨rfl, fun _ _ => rfl⟩
        · exact ⟨rfl, fun r hr => by simp [State.reg_setReg_ne had (hr d)]⟩
      exact ⟨h1.1.trans h2.1, fun r hr => (h1.2 r hr).trans (h2.2 r hr)⟩
  have hnext : (interleave a).ticksOnly = true := by
    rw [State.ticksOnly, List.all_eq_true] at *
    rw [interleave_agenda]
    exact fun q hq => ht q (List.mem_of_mem_tail hq)
  cases hag : a.agenda with
  | nil =>
    refine ⟨?_, ?_, hnext⟩ <;> simp [interleave, hag]
  | cons p ps =>
    have hp : ∀ m ∈ p, isTick m = true := by
      simp only [State.ticksOnly, hag, List.all_cons, Bool.and_eq_true, List.all_eq_true] at ht
      exact ht.1
    have := fold p { a with agenda := ps } hp had
    refine ⟨?_, ?_, hnext⟩
    · simp only [interleave, hag]
      exact this.1
    · simp only [interleave, hag]
      exact this.2

/-! ### The register map -/

/-- The register at a register's own address and width is that register (R41, R43). -/
theorem regAt_addr {c : Config} (h : c.addrOk = true) (r : Reg) :
    c.regAt (c.addr r) r.bytes = some r := by
  unfold Config.regAt
  cases hf : Reg.all.find? (fun r' => c.addr r' == c.addr r && r'.bytes == r.bytes) with
  | none =>
    have := List.find?_eq_none.mp hf r (Reg.mem_all r)
    simp at this
  | some r' =>
    have := List.find?_some hf
    simp only [Bool.and_eq_true, beq_iff_eq] at this
    by_contra hne
    have hne : r' ≠ r := fun e => hne (by rw [e])
    have h1 := Config.apart_of_addrOk h hne
    have h2 := Reg.one_le_bytes r
    rw [this.1, this.2] at h1
    omega

/-- A register outside the written ones is untouched. -/
theorem Untouched.reg_eq {s t : State} {W : List Reg} (had : s.cfg.addrOk = true)
    (h : Untouched s t W) {r : Reg} (hr : r ∉ W) : t.reg r = s.reg r := by
  refine State.reg_of_bytes h.cfg ?_
  intro a ha
  refine h.bytes a ?_
  intro r' hr'
  have hne : r ≠ r' := fun e => hr (e ▸ hr')
  have := Config.apart_of_addrOk had hne
  simp only [occupies, decide_eq_true_eq, decide_eq_false_iff_not] at *
  omega

/-! ### Going on with a command -/

@[simp] theorem State.endCommand_cfg (s : State) (d : Dev) : (s.endCommand d).cfg = s.cfg := rfl
@[simp] theorem State.endCommand_mem (s : State) (d : Dev) : (s.endCommand d).mem = s.mem := rfl
@[simp] theorem State.endCommand_gie (s : State) (d : Dev) : (s.endCommand d).gie = s.gie := rfl
@[simp] theorem State.endCommand_port (s : State) (d : Dev) : (s.endCommand d).port = s.port := rfl
@[simp] theorem State.endCommand_target (s : State) (d : Dev) : (s.endCommand d).target = s.target := rfl
@[simp] theorem State.endCommand_agenda (s : State) (d : Dev) : (s.endCommand d).agenda = s.agenda := rfl
@[simp] theorem State.endCommand_trace (s : State) (d : Dev) : (s.endCommand d).trace = s.trace := rfl
@[simp] theorem State.reg_endCommand (s : State) (d : Dev) (r : Reg) :
    (s.endCommand d).reg r = s.reg r := rfl
@[simp] theorem State.endCommand_inst (s : State) (d : Dev) :
    (s.endCommand d).inst = s.inst.set d { s.inst.get d with busy := false, seq := 0 } := rfl

/-- What the next step of a busy instance can be: a stop, the micro-steps that are left, or the end of
a command that has none left (R19, R20). -/
theorem resume_cases (d : Dev) (s : State) :
    (∃ f, latchedHazard d s = some f ∧ resume d s = .fault f) ∨
    (latchedHazard d s = none ∧ (s.inst.get d).seq.toNat < (latchedScript d s).length ∧
      resume d s = .next (runScript d ((latchedScript d s).drop (s.inst.get d).seq.toNat) s)) ∨
    (latchedHazard d s = none ∧ (latchedScript d s).length ≤ (s.inst.get d).seq.toNat ∧
      resume d s = .next (s.endCommand d)) := by
  cases h : latchedHazard d s with
  | some f => exact .inl ⟨f, rfl, by simp only [resume, h]⟩
  | none =>
    by_cases hl : (s.inst.get d).seq.toNat < (latchedScript d s).length
    · exact .inr (.inl ⟨rfl, hl, by simp only [resume, h, if_pos hl]⟩)
    · exact .inr (.inr ⟨rfl, Nat.le_of_not_lt hl, by simp only [resume, h, if_neg hl]⟩)

end Sys2Proof.Machine
end

