-- ==== Sys2Proof/Tests/Slice0.lean ====
section
/-! SUPPORT. The model's own tests.  Expected results are those of spec/95_test_vectors.md (its
vectors are named in the comments) and of the tables of spec/; the theorems named `witness_` show
states and operands that meet all hypotheses of a statement together. -/

namespace Sys2Proof.Tests

open Sys2Proof Sys2Proof.Machine

/-! ### Small states -/

/-- Reset state, except that one instance is the target and holds a captured engine. -/
def engineState (d : Dev) (p : Phase) (mode : BitVec 6) (top : Top) (ps : Prescaler) : State :=
  { State.reset.setInst d { Inst.reset with phase := p, wm := ⟨mode, top⟩, ps := ps } with
    target := d }

/-- D0 after CONFIG FastPwm, Div64. -/
def pwm0 : State := engineState .d0 .uninitialized 3 (.fixed 0xFF) .div64

/-- D0 after CONFIG FastPwm, Div64 and ACTIVATE 0, 0: CTRLA = CTRLB = 0x03. -/
def running0 : State :=
  ((engineState .d0 .running 3 (.fixed 0xFF) .div64).setReg (.ctrlA .d0) 3).setReg (.ctrlB .d0) 3

/-- D1 after CONFIG CtcCeil, Div64. -/
def ceil1 : State := engineState .d1 .uninitialized 12 (.reg .ceil) .div64

/-- D1 after CONFIG CtcCompareA, Div64. -/
def compareA1 : State := engineState .d1 .uninitialized 4 (.reg (.compare 0)) .div64

/-- The state a word leads to when it is the next one presented. -/
def afterWord (s : State) (w : Word) : State :=
  match step { s with port := [(s.target, w)] } with
  | .next t => t
  | .fault _ => s
  | .refused _ => s

/-- The refusal a word meets when it is the next one presented. -/
def refusalOfWord (s : State) (w : Word) : Option Refusal :=
  match step { s with port := [(s.target, w)] } with
  | .next _ => none
  | .fault _ => none
  | .refused r => some r

/-! ### WellFormed: each check refuses an ill-formed command -/

theorem test_wf_wmid : (Instr.config 13 2).wf Config.default .d1 = false := by decide

theorem test_wf_psid : (Instr.config 0 3).wf Config.default .d0 = false := by decide

theorem test_wf_psid_beyond_table : (Instr.config 0 10).wf Config.default .d2 = false := by decide

theorem test_wf_activate : (Instr.activate false 0x100).wf Config.default .d0 = false := by decide

theorem test_wf_actch : (Instr.actch .a 1 true 256).wf Config.default .d2 = false := by decide

theorem test_wf_updtop : (Instr.updtop 500).wf Config.default .d0 = false := by decide

theorem test_wf_updcmp : (Instr.updcmp .b 500).wf Config.default .d2 = false := by decide

/-- A catalog whose 8-bit mode has a pattern above bit 2 breaks R94 (b). -/
def badCatalog : Config :=
  { Config.default with
    dev := Config.default.dev.set .d0
      { Config.default.dev.d0 with catalog := [catalogRow 8 .normal (.fixed 0xFF)] } }

theorem test_wf_catalog : (Instr.config 8 1).wf badCatalog .d0 = false := by decide

theorem test_default_config_wf : Config.default.wf = true := by decide

/-! ### Decoding: V1, V2 -/

theorem test_decode_config : decodeTableWord 32 0x10000704 = some (.config 7 4) := by decide

theorem test_decode_config_wide : decodeTableWord 32 0x10000F09 = some (.config 15 9) := by decide

theorem test_decode_activate : decodeTableWord 32 0x2080FFFF = some (.activate true 0xFFFF) := by
  decide

theorem test_decode_actch : decodeTableWord 32 0x378003E8 = some (.actch .b 3 true 1000) := by
  decide

theorem test_decode_actch_reserved_channel :
    decodeTableWord 32 0x3F80FFFF = some (.actch .d 3 true 0xFFFF) := by decide

theorem test_decode_actpin : decodeTableWord 32 0x44000000 = some (.actpin .b) := by decide

theorem test_decode_updtop : decodeTableWord 32 0x500001F4 = some (.updtop 500) := by decide

theorem test_decode_updcmp : decodeTableWord 32 0x640001F4 = some (.updcmp .b 500) := by decide

theorem test_encode : [encode (.config 15 9), encode (.activate false 255),
    encode (.actch .a 1 true 128), encode (.actpin .a), encode (.updtop 500),
    encode (.updcmp .a 0)] =
    [0x10000F09, 0x200000FF, 0x31800080, 0x40000000, 0x500001F4, 0x60000000] := by decide

/-- The words of V2 that no instance decodes. -/
theorem test_decode_refuses_mbz :
    ([0x10010704, 0x10000714, 0x10004704, 0x14000704, 0x21000000, 0x20010000, 0x50800000,
      0x40000001, 0x41000000, 0x40800000, 0x61000005, 0x60800005] : List Word).all
      (fun w => refusalOfWord running0 w == some .mustBeZero) = true := by decide

theorem test_decode_refuses_opcode :
    ([0x00000000, 0x70000000, 0x90000000, 0xFFFFFFFF] : List Word).all
      (fun w => refusalOfWord running0 w == some .reservedOpcode) = true := by decide

/-- The words of V2 that D0 refuses for their operands. -/
theorem test_refuses_operands :
    ([0x20000100, 0x500001F4, 0x640001F4, 0x31800100] : List Word).all
      (fun w => refusalOfWord running0 w == some .valTooWide) = true ∧
    ([0x10000402, 0x10000602, 0x10000D02, 0x10003F02] : List Word).all
      (fun w => refusalOfWord running0 w == some .wmidNotInCatalog) = true ∧
    ([0x10000003, 0x10000005, 0x1000000A, 0x1000000F] : List Word).all
      (fun w => refusalOfWord running0 w == some .psidNotOnDevice) = true := by decide

/-- V2, phase refusals; the refusal comes before the channel guard. -/
theorem test_refuses_unconfigured :
    ([0x20000000, 0x30000000, 0x40000000, 0x50000000, 0x60000000, 0x3B800007] : List Word).all
      (fun w => refusalOfWord State.reset w == some .unconfigured) = true := by decide

theorem test_refuses_catalog_outside_spec :
    refusalOfWord { State.reset with cfg := badCatalog, target := .d0 } 0x10000801 =
      some .catalogOutsideSpec := by decide

/-- R83: an absent IE is 0; R82: a mode by name; V1: ACTCH D0, A, 128, Toggle, 1. -/
theorem test_assemble :
    (assemble Config.default .d1 (.activate 0 none)).map encode = some 0x20000000 ∧
    (assemble Config.default .d1 (.config (.name .fastPwm10) .div64)).map encode =
      some 0x10000704 ∧
    (assemble Config.default .d0 (.actch .a 128 .toggle true)).map encode = some 0x31800080 := by
  decide

/-- The default configuration with another COM_CODE on D0 (D23) and a catalog name of its own. -/
def otherCodes : Config :=
  { Config.default with
    dev := Config.default.dev.set .d0
      { Config.default.dev.d0 with
        comCode := ⟨3, 2, 1, 0⟩, catalog := [catalogRow 1 (.other 0) (.fixed 0xFF)] } }

/-- With that COM_CODE Toggle is spelt 0b10, and that is what ACTCH ORs into CTRLA (R70, R75). -/
theorem test_other_com_code :
    otherCodes.wf = true ∧
    (assemble otherCodes .d0 (.actch .a 128 .toggle true)).map encode = some 0x32800080 ∧
    comField (otherCodes.dev.get .d0) 0 (comName (otherCodes.dev.get .d0) 2) = 0x80 ∧
    comName (otherCodes.dev.get .d0) 2 = .toggle := by decide

/-! ### Field functions: S5, V3 -/

theorem test_wm_eq :
    (⟨5, .fixed 0xFF⟩ : WaveformMode).wmEq ⟨5, .reg (.compare 0)⟩ = true ∧
    (⟨5, .fixed 0xFF⟩ : WaveformMode).wmEq ⟨7, .fixed 0xFF⟩ = false := by decide

theorem test_set_bit : setBit 0xFF 2 false = 0xFD ∧ setBit 0 4 true = 4 ∧ setBit 5 1 true = 5 ∧
    setBit 5 1 false = 4 := by decide

theorem test_fields :
    [comField Config.default.dev.d0 0 .clear, comField Config.default.dev.d0 1 .set,
      pinMask Config.default.dev.d0 1, pinMask Config.default.dev.d2 0,
      wgmB Config.default.dev.d1 15, wgmA Config.default.dev.d1 15] =
      [0x80, 0x30, 0x20, 0x08, 0x18, 0x03] := by decide

/-! ### One step of each command -/

/-- V4. -/
theorem test_config :
    let t := afterWord State.reset 0x10000704
    t.inst.d1.wm = ⟨7, .fixed 0x3FF⟩ ∧ t.inst.d1.ps = .div64 ∧ t.inst.d1.phase = .uninitialized ∧
      t.trace = [] ∧ t.mem = [] := by decide

/-- S6. -/
theorem test_activate_fixed :
    (afterWord (engineState .d1 .uninitialized 7 (.fixed 0x3FF) .div64) 0x20000000).trace =
      [.seqWrite (.ctrlA .d1) 0, .seqWrite (.ctrlB .d1) 0, .seqWrite (.count .d1) 0,
       .seqWrite (.imask .d1) 0, .seqRead (.imask .d1) 0, .seqWrite (.imask .d1) 0,
       .seqRead (.ctrlA .d1) 0, .seqWrite (.ctrlA .d1) 3, .seqWrite (.ctrlB .d1) 0x0B] := by decide

/-- S7, the CEIL variant. -/
theorem test_activate_ceil :
    let t := afterWord ceil1 0x208001F4
    t.reg .ceil = 500 ∧ t.reg (.imask .d1) = 1 ∧ t.reg (.ctrlB .d1) = 0x1B ∧
      t.reg (.compare .d1 0) = 0 := by decide

/-- S8. -/
theorem test_actch :
    (afterWord running0 0x31800080).trace =
      [.seqRead (.ctrlA .d0) 3, .seqWrite (.ctrlA .d0) 0x43, .seqRead (.imask .d0) 0,
       .seqWrite (.imask .d0) 2, .seqWrite (.compare .d0 0) 0x80] := by decide

/-- V6 (b): the field accumulates, the record does not. -/
theorem test_actch_accumulates :
    let t := afterWord (running0.setReg (.ctrlA .d0) 0x43) 0x32000080
    t.reg (.ctrlA .d0) = 0xC3 ∧ t.inst.d0.com.a = .clear ∧ t.inst.d0.chActive.a = true := by decide

/-- V6 (d). -/
theorem test_updcmp :
    (afterWord running0 0x640000FF).trace = [.seqWrite (.compare .d0 1) 0xFF] := by decide

/-- V6 (c). -/
theorem test_updcmp_out_of_range :
    (afterWord running0 0x68000009).trace = [] ∧ (afterWord running0 0x68000009).mem = running0.mem ∧
      refusalOfWord running0 0x68000009 = none := by decide

/-- S2, S3. -/
theorem test_updtop :
    (afterWord pwm0 0x500000A5).trace = [] ∧
    (afterWord ceil1 0x5000BEEF).trace = [.seqWrite .ceil 0xBEEF] := by decide

theorem test_updtop_compare :
    (afterWord compareA1 0x5000BEEF).trace = [.seqWrite (.compare .d1 0) 0xBEEF] := by decide

/-- V8. -/
theorem test_actpin :
    (afterWord (pwm0.setReg (.portOut .d) 0xFF) 0x40000000).trace =
      [.seqRead (.portOut .d) 0xFF, .seqWrite (.portOut .d) 0xBF, .seqRead (.portDir .d) 0,
       .seqWrite (.portDir .d) 0x40] := by decide

/-- V8, D2 channel B. -/
theorem test_actpin_d2 :
    (afterWord ((engineState .d2 .running 0 (.fixed 0xFF) .none).setReg (.portOut .d) 0xFF)
      0x44000000).trace =
      [.seqRead (.portOut .d) 0xFF, .seqWrite (.portOut .d) 0xF7, .seqRead (.portDir .d) 0,
       .seqWrite (.portDir .d) 8] := by decide

/-! ### The environment: P5 -/

/-- P5 (a): a handler's write inside the read-modify-write is lost, then the counter runs. -/
theorem test_p5_activate :
    let t := afterWord { pwm0 with
      gie := true
      agenda := [[], [], [], [], [], [], [.busRead 0x6E 1], [.busRead 0x44 1], [.busWrite 0x44 1 0x40],
        [], [.tick .d0 0x17]] } 0x20800000
    [t.reg (.ctrlA .d0), t.reg (.ctrlB .d0), t.reg (.imask .d0), t.reg (.count .d0)] =
      [3, 3, 1, 0x17] := by decide

/-- P5 (b): ACTCH brings back a bit the handler has cleared. -/
theorem test_p5_actch :
    (afterWord { running0.setReg (.imask .d0) 1 with
      gie := true, agenda := [[], [], [], [.busWrite 0x6E 1 0]] } 0x37800020).trace =
      [.seqRead (.ctrlA .d0) 3, .seqWrite (.ctrlA .d0) 0x33, .seqRead (.imask .d0) 1,
       .handlerWrite (.imask .d0) 0, .seqWrite (.imask .d0) 5, .seqWrite (.compare .d0 1) 0x20] := by
  decide

/-- R133: a reset in the middle of ACTIVATE leaves the reset state. -/
theorem test_reset_cancels :
    let t := afterWord { ceil1 with agenda := [[], [], [], [], [.reset]] } 0x208001F4
    t.mem = [] ∧ t.inst = ⟨.reset, .reset, .reset⟩ := by decide

/-- R81 (5), R112: a latched ACTCH of channel C ends with nothing done. -/
theorem test_latched_guard_fails :
    let s := running0.setInst .d0 { running0.inst.d0 with busy := true, cmd := 0x3B800007, seq := 0 }
    (match step s with
      | .next t => (t.inst.d0.busy, t.mem == running0.mem, t.trace == [])
      | .fault _ => (true, false, false)
      | .refused _ => (true, false, false)) = (false, true, true) := by decide

/-! ### Witnesses: hypotheses of the statements met together -/

theorem witness_DecodeEncodeRoundTrip : decode 0x10000704 = .ok (.config 7 4) := by rfl

theorem witness_OpcodeRowsDoNotOverlap :
    ∃ r ∈ opcodeTable, r.covers 0x2080FFFF = true := by decide

theorem witness_MustBeZeroBitsAreZero :
    decode 0x10003F0F = .ok (.config 63 15) ∧ decode 0x20800000 = .ok (.activate true 0) ∧
    decode 0x4C000000 = .ok (.actpin .d) ∧ decode 0x5000FFFF = .ok (.updtop 0xFFFF) ∧
    decode 0x6C00FFFF = .ok (.updcmp .d 0xFFFF) ∧
    decode 0x3F80FFFF = .ok (.actch .d 3 true 0xFFFF) :=
  ⟨rfl, rfl, rfl, rfl, rfl, rfl⟩

theorem witness_ReservedOpcodesAreRefused :
    State.reset.allIdle = true ∧ ((0x0FFFFFFF : Word).extractLsb' 28 4 = 0) ∧
    7 ≤ ((0x70000000 : Word).extractLsb' 28 4).toNat ∧
    7 ≤ ((0xFFFFFFFF : Word).extractLsb' 28 4).toNat := by decide

theorem witness_MustBeZeroWordsAreRefused :
    State.reset.allIdle = true ∧
    (0x14000704 : Word).extractLsb' 28 4 = 1 ∧ (0x14000704 : Word).extractLsb' 14 14 ≠ 0 ∧
    (0x10000714 : Word).extractLsb' 4 4 ≠ 0 ∧
    (0x21000000 : Word).extractLsb' 28 4 = 2 ∧ (0x21000000 : Word).extractLsb' 24 4 ≠ 0 ∧
    (0x20010000 : Word).extractLsb' 16 7 ≠ 0 ∧
    (0x30400000 : Word).extractLsb' 28 4 = 3 ∧ (0x30400000 : Word).extractLsb' 16 7 ≠ 0 ∧
    (0x40800000 : Word).extractLsb' 28 4 = 4 ∧ (0x40800000 : Word).extractLsb' 16 10 ≠ 0 ∧
    (0x40000001 : Word).extractLsb' 0 16 ≠ 0 ∧
    (0x50800000 : Word).extractLsb' 28 4 = 5 ∧ (0x50800000 : Word).extractLsb' 16 12 ≠ 0 ∧
    (0x60800005 : Word).extractLsb' 28 4 = 6 ∧ (0x60800005 : Word).extractLsb' 16 10 ≠ 0 := by
  decide

theorem witness_StepRunsDecodedWord :
    State.reset.allIdle = true ∧ (decode 0x10000704).toOption = some (.config 7 4) ∧
    ({ State.reset with port := [(.d1, 0x10000704)] } : State).port = (.d1, 0x10000704) :: [] := by
  decide

theorem witness_FetchWordRunsIt :
    running0.allIdle = true ∧ (decode (BitVec.ofNat 32 0x31800080)).toOption =
      some (.actch .a 1 true 128) := by decide

/-- D0 with an ACTIVATE in progress, before micro-step 5. -/
def midway : State :=
  pwm0.setInst .d0 { pwm0.inst.d0 with busy := true, cmd := 0x20800000, seq := 5 }

theorem witness_WordWaitsWhileBusy :
    (midway.inst.get .d0).busy = true ∧ ∃ t, step midway = .next t := ⟨by decide, _, rfl⟩

theorem witness_StepResumesLatchedCommand :
    (∀ d', (midway.inst.get d').busy = true ↔ d' = .d0) ∧
    (midway.inst.get .d0).cmd = encode (.activate true 0) ∧
    hazardOf (.activate true 0) .d0 midway = none ∧
    (midway.inst.get .d0).seq.toNat < (scriptOf (.activate true 0) .d0 midway).length := by
  refine ⟨fun d' => by cases d' <;> decide, by decide, by decide, by decide⟩

/-- D0 with an accepted ACTCH of channel C, before its guard (R81 (5)). -/
def guardToFail : State :=
  running0.setInst .d0 { running0.inst.d0 with busy := true, cmd := 0x3B800007, seq := 0 }

/-- D0 with an ACTIVATE latched and an index past its last micro-step. -/
def pastTheEnd : State :=
  pwm0.setInst .d0 { pwm0.inst.d0 with busy := true, cmd := 0x20800000, seq := 11 }

theorem witness_LatchedCommandWithNoMicroStepEnds :
    ((∀ d', (guardToFail.inst.get d').busy = true ↔ d' = .d0) ∧
      (guardToFail.inst.get .d0).cmd = encode (.actch .c 3 true 7) ∧
      hazardOf (.actch .c 3 true 7) .d0 guardToFail = none ∧
      guardFails (.actch .c 3 true 7) = true) ∧
    (∀ d', (pastTheEnd.inst.get d').busy = true ↔ d' = .d0) ∧
    (pastTheEnd.inst.get .d0).cmd = encode (.activate true 0) ∧
    hazardOf (.activate true 0) .d0 pastTheEnd = none ∧
    (scriptOf (.activate true 0) .d0 pastTheEnd).length ≤ (pastTheEnd.inst.get .d0).seq.toNat := by
  refine ⟨⟨fun d' => by cases d' <;> decide, by decide, by decide, by decide⟩,
    fun d' => by cases d' <;> decide, by decide, by decide, by decide⟩

theorem witness_UnconfiguredRefusesOtherCommands :
    (State.reset.inst.get State.reset.target).phase = .unconfigured ∧
    isConfig (.actch .c 3 true 7) = false := by decide

theorem witness_WideValuesAreRefused :
    (running0.inst.get running0.target).phase ≠ .unconfigured ∧ running0.target ≠ .d1 ∧
    (0x0100 : Half).extractLsb' 8 8 ≠ 0 ∧ (0x00FF : Half).extractLsb' 8 8 = 0 ∧
    (ceil1.inst.get ceil1.target).phase ≠ .unconfigured ∧ ceil1.target = .d1 := by decide

theorem witness_RefusedExactlyWhenIllegal :
    exec (.updtop 500) running0 = .refused .valTooWide ∧
    exec (.actpin .a) State.reset = .refused .unconfigured ∧
    exec (.config 13 2) ceil1 = .refused .wmidNotInCatalog := ⟨rfl, rfl, rfl⟩

theorem witness_UnknownSelectorsAreRefused :
    pwm0.cfg.catalogOk pwm0.target = true ∧ wmDecode pwm0.cfg pwm0.target 4 = none ∧
    wmDecode pwm0.cfg pwm0.target 0 ≠ none ∧ psDecode pwm0.cfg pwm0.target 3 = none := by decide

theorem witness_ConfigCapturesAndTouchesNoHardware :
    State.reset.quiet = true ∧ State.reset.cfg.catalogOk State.reset.target = true ∧
    wmDecode State.reset.cfg State.reset.target 7 = some ⟨7, .fixed 0x3FF⟩ ∧
    psDecode State.reset.cfg State.reset.target 4 = some .div64 := by decide

theorem witness_ActivateEndState :
    ceil1.cfg.wf = true ∧ ceil1.quiet = true ∧
    (ceil1.inst.get ceil1.target).phase ≠ .unconfigured ∧
    (Instr.activate true 0xFFFF).wf ceil1.cfg ceil1.target = true ∧
    psCode ceil1.cfg ceil1.target (ceil1.inst.get ceil1.target).ps = some 3 ∧
    ceil1.target.topOk (ceil1.inst.get ceil1.target).wm.top = true ∧
    topReg ceil1.target (ceil1.inst.get ceil1.target).wm = some .ceil := by decide

/-- D2 after CONFIG Normal, None. -/
def stopped2 : State := engineState .d2 .uninitialized 0 (.fixed 0xFF) .none

theorem witness_ActivateWithoutClockDoesNotStart :
    stopped2.cfg.wf = true ∧ stopped2.quiet = true ∧
    (stopped2.inst.get stopped2.target).phase ≠ .unconfigured ∧
    (Instr.activate false 0).wf stopped2.cfg stopped2.target = true ∧
    psCode stopped2.cfg stopped2.target (stopped2.inst.get stopped2.target).ps = some 0 ∧
    stopped2.target.topOk (stopped2.inst.get stopped2.target).wm.top = true ∧
    stopped2.target.modeOk (stopped2.inst.get stopped2.target).wm.mode = true := by decide

/-- D1 running, with counter ticks before the first and the fourth micro-step. -/
def ticking1 : State :=
  { ceil1.setReg (.ctrlB .d1) 0x1B with agenda := [[.tick .d1 7], [], [], [.tick .d1 9]] }

theorem witness_ActivateUnderCounterTicks :
    ticking1.cfg.wf = true ∧ ticking1.ticksOnly = true ∧
    (ticking1.dev ticking1.target).zeroOrder = [.ctrlA, .ctrlB, .count, .imask] ∧
    (ticking1.inst.get ticking1.target).phase ≠ .unconfigured ∧
    (Instr.activate true 500).wf ticking1.cfg ticking1.target = true ∧
    psCode ticking1.cfg ticking1.target (ticking1.inst.get ticking1.target).ps = some 3 ∧
    ticking1.target.topOk (ticking1.inst.get ticking1.target).wm.top = true ∧
    ticking1.agenda.getD 10 [] = [] := by decide

theorem witness_RepeatedActivateEndsAlike :
    ∃ t u, exec (.activate true 500) ceil1 = .next t ∧ exec (.activate true 500) t = .next u :=
  ⟨_, _, rfl, rfl⟩

theorem witness_FixedCeilingDiscardsTop :
    hasDynamicTop (pwm0.inst.get pwm0.target).wm = false ∧ pwm0.quiet = true ∧
    (∃ t t', exec (.activate true 1) pwm0 = .next t ∧ exec (.activate true 255) pwm0 = .next t') ∧
    ∃ t t', exec (.updtop 1) pwm0 = .next t ∧ exec (.updtop 255) pwm0 = .next t' :=
  ⟨by decide, by decide, ⟨_, _, rfl, rfl⟩, _, _, rfl, rfl⟩

theorem witness_ActchConnectsChannel :
    running0.cfg.wf = true ∧ running0.quiet = true ∧
    (running0.inst.get running0.target).phase ≠ .unconfigured ∧
    (Instr.actch .b 3 true 255).wf running0.cfg running0.target = true ∧ slot .b = some 1 ∧
    running0.reg (.ctrlA running0.target) = busByte 3 ∧
    running0.reg (.imask running0.target) = busByte 0 := by decide

theorem witness_ActchAccumulatesComField :
    ceil1.cfg.wf = true ∧ ceil1.quiet = true ∧
    (ceil1.inst.get ceil1.target).phase ≠ .unconfigured ∧
    (Instr.actch .a 1 false 0xFFFF).wf ceil1.cfg ceil1.target = true ∧
    slot .a = some 0 := by decide

theorem witness_EveryModeCodeNamesOneMode : Config.default.wf = true ∧ otherCodes.wf = true := by
  decide

theorem witness_ChannelCommandsCommute :
    running0.cfg.wf = true ∧ running0.quiet = true ∧ outOfRange .a = false ∧ outOfRange .b = false ∧
    (∃ t u t' u', exec (.actch .a 1 true 10) running0 = .next t ∧
      exec (.actch .b 3 false 20) t = .next u ∧
      exec (.actch .b 3 false 20) running0 = .next t' ∧
      exec (.actch .a 1 true 10) t' = .next u') ∧
    ∃ t u t' u', exec (.updcmp .a 10) running0 = .next t ∧ exec (.updcmp .b 20) t = .next u ∧
      exec (.updcmp .b 20) running0 = .next t' ∧ exec (.updcmp .a 10) t' = .next u' :=
  ⟨by decide, by decide, by decide, by decide, ⟨_, _, _, _, rfl, rfl, rfl, rfl⟩,
    _, _, _, _, rfl, rfl, rfl, rfl⟩

theorem witness_OutOfRangeChannelIsSilentNoop :
    CHAN ≤ (Channel.index .c).toNat ∧ CHAN ≤ (Channel.index .d).toNat ∧
    (running0.inst.get running0.target).phase ≠ .unconfigured ∧
    (Instr.actch .c 3 true 7).wf running0.cfg running0.target = true ∧
    (Instr.updcmp .d 9).wf running0.cfg running0.target = true ∧
    (Instr.actpin .c).wf running0.cfg running0.target = true ∧ running0.allIdle = true := by decide

theorem witness_UpdcmpWritesCompare :
    ceil1.cfg.wf = true ∧ ceil1.quiet = true ∧
    (ceil1.inst.get ceil1.target).phase ≠ .unconfigured ∧
    (Instr.updcmp .b 0xFFFF).wf ceil1.cfg ceil1.target = true ∧ slot .b = some 1 := by decide

theorem witness_UpdtopLaws :
    (pwm0.cfg.wf = true ∧ pwm0.quiet = true ∧
      (pwm0.inst.get pwm0.target).phase ≠ .unconfigured ∧
      (Instr.updtop 255).wf pwm0.cfg pwm0.target = true ∧
      pwm0.target.topOk (pwm0.inst.get pwm0.target).wm.top = true ∧
      hasDynamicTop (pwm0.inst.get pwm0.target).wm = false) ∧
    ceil1.cfg.wf = true ∧ ceil1.quiet = true ∧
      (ceil1.inst.get ceil1.target).phase ≠ .unconfigured ∧
      (Instr.updtop 0xFFFF).wf ceil1.cfg ceil1.target = true ∧
      ceil1.target.topOk (ceil1.inst.get ceil1.target).wm.top = true ∧
      hasDynamicTop (ceil1.inst.get ceil1.target).wm = true := by decide

theorem witness_CeilingInCompareAIsShared :
    (compareA1.inst.get compareA1.target).wm.top = .reg (.compare 0) ∧ compareA1.quiet = true ∧
    ∃ t t', exec (.updtop 500) compareA1 = .next t ∧ exec (.updcmp .a 500) compareA1 = .next t' :=
  ⟨by decide, by decide, _, _, rfl, rfl⟩

theorem witness_ActpinMakesOutput :
    pwm0.cfg.wf = true ∧ pwm0.quiet = true ∧ (pwm0.inst.get pwm0.target).phase ≠ .unconfigured ∧
    slot .b = some 1 ∧ pwm0.reg (.portOut (pinPort (pwm0.dev pwm0.target) 1)) = busByte 0 ∧
    pwm0.reg (.portDir (pinPort (pwm0.dev pwm0.target) 1)) = busByte 0 := by decide

/-- D0 with a handler and a counter that move while a command runs. -/
def disturbed0 : State :=
  { running0 with gie := true, agenda := [[.busWrite 0x44 1 0xFF], [.tick .d0 5, .busRead 0x6E 1]] }

theorem witness_TransactionsAreTableT :
    disturbed0.noReset = true ∧ (∃ t, exec (.activate true 0) disturbed0 = .next t) ∧
    ∃ t, exec (.updcmp .c 0) disturbed0 = .next t :=
  ⟨by decide, ⟨_, rfl⟩, _, rfl⟩

theorem witness_ActivateWritesClockLast :
    disturbed0.noReset = true ∧
    psCode disturbed0.cfg disturbed0.target (disturbed0.inst.get disturbed0.target).ps = some 3 ∧
    ∃ t, exec (.activate true 0) disturbed0 = .next t :=
  ⟨by decide, by decide, _, rfl⟩

theorem witness_EveryLegalCommandEnds :
    (running0.inst.get running0.target).phase ≠ .unconfigured ∧ running0.cfg.wf = true ∧
    (Instr.config 0 0).wf running0.cfg running0.target = true ∧
    (Instr.activate true 255).wf running0.cfg running0.target = true ∧
    hazardOf (.activate true 255) running0.target running0 = none ∧
    (Instr.actch .a 1 true 255).wf running0.cfg running0.target = true ∧
    (Instr.updtop 255).wf running0.cfg running0.target = true ∧
    hazardOf (.updtop 255) running0.target running0 = none ∧
    (Instr.updcmp .b 255).wf running0.cfg running0.target = true ∧
    hazardOf (.actpin .a) running0.target running0 = none := by decide

theorem witness_OtherInstancesAreUntouched :
    running0.cfg.wf = true ∧ running0.quiet = true ∧ (.d1 : Dev) ≠ running0.target ∧
    ownerOf .ceil = some .d1 ∧ ∃ t, exec (.activate true 255) running0 = .next t :=
  ⟨by decide, by decide, by decide, rfl, _, rfl⟩

theorem witness_PhaseMachine :
    State.reset.noReset = true ∧
    (State.reset.inst.get State.reset.target).phase = .unconfigured ∧ isConfig (.updtop 0) = false ∧
    disturbed0.noReset = true ∧ (∃ t, exec (.config 0 0) disturbed0 = .next t) ∧
    (∃ t, exec (.activate false 0) disturbed0 = .next t) ∧
    ∃ t, exec (.actpin .a) disturbed0 = .next t :=
  ⟨by decide, by decide, rfl, by decide, ⟨_, rfl⟩, ⟨_, rfl⟩, _, rfl⟩

theorem witness_NoDeactivateNoDetach :
    running0.cfg.wf = true ∧ running0.quiet = true ∧
    running0.target.topOk (running0.inst.get running0.target).wm.top = true ∧
    isActivate (.actch .a 2 true 9) = false ∧ isActpin (.actch .a 2 true 9) = false ∧
    ∃ t, exec (.actch .a 2 true 9) running0 = .next t :=
  ⟨by decide, by decide, by decide, rfl, rfl, _, rfl⟩

theorem witness_OnlyActivateStartsClock :
    running0.cfg.wf = true ∧ running0.quiet = true ∧
    running0.target.topOk (running0.inst.get running0.target).wm.top = true ∧
    isActivate (.updtop 9) = false ∧ ∃ t, exec (.updtop 9) running0 = .next t :=
  ⟨by decide, by decide, by decide, rfl, _, rfl⟩

theorem witness_UnreadRegistersDoNotMatter :
    ceil1.cfg.wf = true ∧ ceil1.quiet = true ∧ isReadByBlock (.ctrlB .d1) = false ∧
    isReadByBlock .ceil = false ∧ isReadByBlock (.count .d1) = false ∧
    isReadByBlock (.compare .d1 0) = false ∧ ∃ t, exec (.activate true 9) ceil1 = .next t :=
  ⟨by decide, by decide, rfl, rfl, rfl, rfl, _, rfl⟩

theorem witness_ReservedBitsAreNeverSet :
    running0.cfg = Config.default ∧ running0.quiet = true ∧
    running0.target.topOk (running0.inst.get running0.target).wm.top = true ∧
    running0.target.modeOk (running0.inst.get running0.target).wm.mode = true ∧
    running0.target ≠ .d1 ∧ (∃ t, exec (.activate true 9) running0 = .next t) ∧
    ∃ t, exec (.actch .b 3 true 9) running0 = .next t :=
  ⟨rfl, by decide, by decide, by decide, by decide, ⟨_, rfl⟩, _, rfl⟩

theorem witness_CounterMoveSetsCountOnly :
    pwm0.cfg.wf = true ∧ csOf (pwm0.dev .d0) (pwm0.reg (.ctrlB .d0)) = 0 ∧
    running0.cfg.wf = true ∧ csOf (running0.dev .d0) (running0.reg (.ctrlB .d0)) ≠ 0 := by decide

theorem witness_HandlerWritesWholeRegisters :
    running0.cfg.wf = true ∧ running0.gie = false ∧ disturbed0.cfg.wf = true ∧
    disturbed0.gie = true := by decide

/-- One byte of CEIL is no register; nor is an address outside table M. -/
theorem witness_PartialHandlerAccessIsRefused :
    disturbed0.gie = true ∧ (∀ r : Reg, disturbed0.cfg.addr r = 0x87 → r.bytes ≠ 1) ∧
    (∀ r : Reg, disturbed0.cfg.addr r = 0x86 → r.bytes ≠ 1) ∧
    ∀ r : Reg, disturbed0.cfg.addr r = 0xFFFF → r.bytes ≠ 2 := by
  have key : ∀ r ∈ Reg.all, (Config.default.addr r = 0x87 → r.bytes ≠ 1) ∧
      (Config.default.addr r = 0x86 → r.bytes ≠ 1) ∧
      (Config.default.addr r = 0xFFFF → r.bytes ≠ 2) := by decide
  exact ⟨rfl, fun r => (key r (Machine.Reg.mem_all r)).1, fun r => (key r (Machine.Reg.mem_all r)).2.1,
    fun r => (key r (Machine.Reg.mem_all r)).2.2⟩

/-- A handler that writes a register of D0 between micro-steps `k` and `k + 1`. -/
def lostWrite0 (k : Nat) (r : Reg) (v : Half) : State :=
  { running0 with
    gie := true
    agenda := List.replicate (k + 1) [] ++ [[.busWrite (Config.default.addr r) r.bytes v]] }

/-- The premises of WriteInsideRmwIsLost, for a command of D0. -/
def rmwPremises (i : Instr) (k : Nat) (r : Reg) (v : Half) : Bool :=
  let s := lostWrite0 k r v
  s.cfg.wf && s.gie && ((s.inst.get s.target).phase != .unconfigured) && i.wf s.cfg s.target &&
    !guardFails i && (hazardOf i s.target s == none) &&
    ((scriptOf i s.target s)[k]? == some (.load r)) &&
    (s.agenda == List.replicate (k + 1) [] ++ [[.busWrite (s.cfg.addr r) r.bytes v]])

/-- All six read-modify-writes of R51. -/
theorem witness_WriteInsideRmwIsLost :
    rmwPremises (.activate true 9) 4 (.imask .d0) 0xFF = true ∧
    rmwPremises (.activate true 9) 7 (.ctrlA .d0) 0xFF = true ∧
    rmwPremises (.actch .a 1 true 9) 0 (.ctrlA .d0) 0 = true ∧
    rmwPremises (.actch .a 1 true 9) 2 (.imask .d0) 0 = true ∧
    rmwPremises (.actpin .b) 0 (.portOut .d) 0xFF = true ∧
    rmwPremises (.actpin .b) 2 (.portDir .d) 0 = true := by decide

theorem witness_ReadModifyWritesOfR51 :
    slot .b = some 1 ∧
    (scriptOf (.actpin .b) running0.target running0)[2]? = some (.load (.portDir .d)) := by decide

/-- D0 in the critical section, with a tick and a blocked handler to come. -/
def critical0 : State := { running0 with agenda := [[.busWrite 0x44 1 0], [.tick .d0 5]] }

theorem witness_CriticalSectionExcludesHandler :
    critical0.criticalSection = true ∧ (∃ t, exec (.actch .a 3 true 9) critical0 = .next t) ∧
    exec (.updtop 500) critical0 = .refused .valTooWide :=
  ⟨by decide, ⟨_, rfl⟩, rfl⟩

/-- D1 with a reset to come before micro-step `k`, after a tick. -/
def doomed1 (k : Nat) : State :=
  { ceil1 with agenda := List.replicate k [.tick .d1 1] ++ [[.tick .d1 5, .reset]] }

/-- At the first and at the last of the eleven micro-steps of ACTIVATE. -/
theorem witness_ResetCancelsCommand :
    (ceil1.inst.get ceil1.target).phase ≠ .unconfigured ∧
    (Instr.activate true 9).wf ceil1.cfg ceil1.target = true ∧
    guardFails (.activate true 9) = false ∧
    hazardOf (.activate true 9) (doomed1 10).target (doomed1 10) = none ∧
    (doomed1 0).agenda = [] ++ ([.tick .d1 5] ++ [.reset]) :: [] ∧
    (doomed1 10).agenda = List.replicate 10 [.tick .d1 1] ++ ([.tick .d1 5] ++ [.reset]) :: [] ∧
    (∀ q ∈ List.replicate 10 [EnvMove.tick .d1 1], ∀ m ∈ q, isReset m = false) ∧
    (List.replicate 10 [EnvMove.tick .d1 1]).length <
      (scriptOf (.activate true 9) (doomed1 10).target (doomed1 10)).length := by decide

theorem witness_RegistersArePlainStorage :
    State.reset.cfg.wf = true ∧ (Reg.ceil ≠ .count .d1) ∧
    occupies State.reset.cfg (.count .d1) 0x83 = false ∧
    occupies State.reset.cfg (.count .d1) 0x86 = false := by decide

theorem witness_SixteenBitRegistersAreLittleEndian :
    (Reg.count .d1).bytes = 2 ∧ Reg.ceil.bytes = 2 ∧ (Reg.compare .d1 1).bytes = 2 := by decide

theorem witness_SetBitSetsOneBit : (0 : Nat) < 8 ∧ (7 : Nat) < 8 := by decide

theorem witness_ModeBitsStayOutOfClockField :
    Config.default.wf = true ∧
    (⟨15, .reg (.compare 0)⟩ : WaveformMode) ∈
      (Config.default.dev.get .d1).catalog.map CatalogRow.wm ∧
    (wgmB (Config.default.dev.get .d1) 15).getLsbD 4 = true := by decide

/-- The default configuration with one register that resets to 0x40. -/
def csrResetConfig : Config := { Config.default with csrReset := [(.ctrlA .d0, 0x40)] }

theorem witness_CsrResetIsHonoured :
    csrResetConfig.wf = true ∧ (csrResetConfig.csrReset.map Prod.fst).Nodup ∧
    (∀ p ∈ csrResetConfig.csrReset, fitReg p.1 p.2 = p.2) ∧
    ((.ctrlA .d0, 0x40) : Reg × Half) ∈ csrResetConfig.csrReset ∧
    Reg.ceil ∉ csrResetConfig.csrReset.map Prod.fst := by decide

/-- D0 running meets the invariant, and a step from it answers a next state. -/
theorem witness_StepKeepsInv :
    running0.Inv = true ∧
    ∃ t, step { running0 with port := [(.d0, 0x31800080)] } = .next t :=
  ⟨by decide, _, rfl⟩

theorem witness_NoFaultUnderInv : running0.Inv = true ∧ State.reset.Inv = true := by decide

end Sys2Proof.Tests
end

section
/-! The state family: the invariant and the phase machine, going on with a command, storage, and what
a command neither reads nor writes. -/

namespace Sys2Proof.Machine

/-! ### The invariant, taken apart -/

theorem Dev.mem_all (d : Dev) : d ∈ Dev.all := by cases d <;> decide

/-- What a configured engine holds: a row of a catalog that meets R94 and a prescaler of its
enumeration (R15, R90). -/
def Catalogued (c : Config) (d : Dev) (wm : WaveformMode) (ps : Prescaler) : Prop :=
  c.catalogOk d = true ∧ wm ∈ (c.dev.get d).catalog.map CatalogRow.wm ∧
    (psCode c d ps).isSome = true

theorem engineOk_iff {c : Config} {d : Dev} {x : Inst} :
    engineOk c d x = true ↔ x.phase = .unconfigured ∨ Catalogued c d x.wm x.ps := by
  simp only [Catalogued, engineOk, Bool.or_eq_true, Bool.and_eq_true, beq_iff_eq,
    List.contains_iff_mem, and_assoc]

theorem State.allIdle_iff {s : State} : s.allIdle = true ↔ ∀ d, (s.inst.get d).idle = true := by
  simp only [State.allIdle, List.all_eq_true]
  exact ⟨fun h d => h d (Dev.mem_all d), fun h d _ => h d⟩

theorem State.Inv_iff {s : State} :
    s.Inv = true ↔ s.mem.wf = true ∧ (∀ d, (s.inst.get d).idle = true) ∧
      ∀ d, engineOk s.cfg d (s.inst.get d) = true := by
  simp only [State.Inv, Bool.and_eq_true, State.allIdle_iff, and_assoc, List.all_eq_true]
  exact and_congr_right fun _ => and_congr_right fun _ =>
    ⟨fun h d => h d (Dev.mem_all d), fun h d _ => h d⟩

/-! ### Which sequencer is busy -/

theorem busy_of_idle {x : Inst} (h : x.idle = true) : x.busy = false := by
  simp only [Inst.idle, Bool.and_eq_true, Bool.not_eq_true'] at h
  exact h.1

theorem busyDev_of_idle {s : State} (h : ∀ d, (s.inst.get d).idle = true) : busyDev s = none := by
  simpa [busyDev] using fun d _ => busy_of_idle (h d)

theorem busyDev_busy {s : State} {d : Dev} (h : busyDev s = some d) :
    (s.inst.get d).busy = true :=
  List.find?_some (p := fun d => (s.inst.get d).busy) h

theorem busyDev_isSome {s : State} {d : Dev} (h : (s.inst.get d).busy = true) :
    ∃ d', busyDev s = some d' :=
  Option.isSome_iff_exists.mp (List.find?_isSome.mpr ⟨d, by cases d <;> decide, h⟩)

theorem busyDev_unique {s : State} {d : Dev} (h : ∀ d', (s.inst.get d').busy = true ↔ d' = d) :
    busyDev s = some d := by
  obtain ⟨d', hd⟩ := busyDev_isSome ((h d).mpr rfl)
  rw [hd, (h d').mp (busyDev_busy hd)]

theorem step_of_busyDev {s : State} {d : Dev} (h : busyDev s = some d) : step s = resume d s := by
  simp only [step, stepMachine, h]

/-- Every next state of an idle machine: that of a command, or an interleaving point gone by. -/
theorem step_next_idle {s t : State} (hi : ∀ d, (s.inst.get d).idle = true) (h : step s = .next t) :
    (∃ d rest i, exec i (s.present d rest) = .next t) ∨ t = interleave s := by
  simp only [step, stepMachine, busyDev_of_idle hi] at h
  split at h
  · rename_i d w rest _
    simp only [takeWord] at h
    split at h
    · rename_i i _
      exact .inl ⟨d, rest, i, h⟩
    · cases h
  · exact .inr (Host.Outcome.next.inj h).symm

theorem resume_port {d : Dev} {s t : State} (h : resume d s = .next t) : t.port = s.port := by
  rcases resume_cases d s with ⟨f, _, e⟩ | ⟨_, _, e⟩ | ⟨_, _, e⟩ <;> rw [e] at h
  · cases h
  · rw [← Host.Outcome.next.inj h, runScript_port]
  · rw [← Host.Outcome.next.inj h, State.endCommand_port]

/-! ### Engines across an interleaving point and a micro-step -/

/-- A property of an engine that holds after reset, an interleaving point keeps (R53, R133). -/
theorem interleave_get {P : Inst → Prop} {s : State} (d : Dev) (hr : P .reset)
    (h : P (s.inst.get d)) : P ((interleave s).inst.get d) := by
  rcases interleave_inst s with e | e <;> rw [e]
  · exact h
  · cases d <;> exact hr

theorem interleave_idle {s : State} {d : Dev} (h : (s.inst.get d).idle = true) :
    ((interleave s).inst.get d).idle = true :=
  interleave_get (P := fun x => x.idle = true) d rfl h

theorem interleave_engineOk {c : Config} {s : State} {d : Dev}
    (h : engineOk c d (s.inst.get d) = true) :
    engineOk c d ((interleave s).inst.get d) = true :=
  interleave_get (P := fun x => engineOk c d x = true) d rfl h

@[simp] theorem advanced_phase (x : Inst) (l : Bool) : (x.advanced l).phase = x.phase := by
  cases l <;> rfl

theorem advanced_engineOk (c : Config) (d : Dev) (x : Inst) (l : Bool) :
    engineOk c d (x.advanced l) = engineOk c d x := by
  cases l <;> rfl

theorem captured_engineOk {c : Config} {d : Dev} {wm : WaveformMode} {ps : Prescaler} (x : Inst)
    (h : Catalogued c d wm ps) : engineOk c d (x.captured wm ps) = true :=
  engineOk_iff.mpr (.inr h)

theorem started_engineOk {c : Config} {d : Dev} {x : Inst} (hn : x.phase ≠ .unconfigured)
    (h : engineOk c d x = true) : engineOk c d x.started = true :=
  engineOk_iff.mpr (.inr ((engineOk_iff.mp h).resolve_left hn))

/-- A micro-step keeps a good engine good: a capture by what it captures, a start because the engine
is configured. -/
theorem engine_engineOk {c : Config} {d : Dev} {s : State} {x : Inst} {op : MicroOp}
    (hcap : ∀ wm ps, op = .capture wm ps → Catalogued c d wm ps)
    (hstart : op = .start → x.phase ≠ .unconfigured) (h : engineOk c d x = true) :
    engineOk c d (op.engine s x) = true := by
  cases op with
  | capture wm ps => exact captured_engineOk x (hcap wm ps rfl)
  | start => exact started_engineOk (hstart rfl) h
  | _ => exact h

/-- No micro-step takes an engine back to UNCONFIGURED (R17). -/
theorem engine_phase_ne {s : State} {x : Inst} (op : MicroOp) (h : x.phase ≠ .unconfigured) :
    (op.engine s x).phase ≠ .unconfigured := by
  cases op with
  | capture wm ps => exact Phase.noConfusion
  | start => exact Phase.noConfusion
  | _ => exact h

/-! ### Scripts in progress -/

/-- As `runScript_induct`, with the knowledge that a micro-step is performed only while its sequencer
is busy: a command cancelled by a reset does no more (R133). -/
theorem runScript_induct_busy {P : State → Prop} (d : Dev) (hi : ∀ s, P s → P (interleave s)) :
    ∀ (ops : List MicroOp) (s : State),
      (∀ op ∈ ops, ∀ (l : Bool) (s : State), (s.inst.get d).busy = true → P s →
        P (seqStep d op l s)) →
      P s → P (runScript d ops s) := by
  intro ops
  induction ops with
  | nil => exact fun s _ h => h
  | cons op ops ih =>
    intro s hop h
    simp only [runScript]
    split
    · rename_i hb
      exact ih _ (fun o ho => hop o (List.mem_cons_of_mem _ ho))
        (hop op List.mem_cons_self _ _ hb (hi s h))
    · exact hi s h

theorem runScript_others_idle {d d' : Dev} (hne : d' ≠ d) (ops : List MicroOp) {s : State}
    (h : (s.inst.get d').idle = true) : ((runScript d ops s).inst.get d').idle = true :=
  runScript_induct (P := fun t => (t.inst.get d').idle = true) d (fun _ h => interleave_idle h) ops s
    (fun op _ l t h => by rwa [seqStep_inst, PerDev.get_set_ne _ _ hne]) h

theorem isConfig_of_isActivate {i : Instr} (h : isActivate i = true) : isConfig i = false := by
  cases i with
  | activate ie val => rfl
  | _ => cases h

theorem isConfig_of_guardFails {i : Instr} (h : guardFails i = true) : isConfig i = false := by
  cases i with
  | config wmid psid => cases h
  | _ => rfl

theorem isActivate_of_guardFails {i : Instr} (h : guardFails i = true) : isActivate i = false := by
  cases i with
  | activate ie val => cases h
  | _ => rfl

/-- The micro-steps of CONFIG capture a row of the catalog and a prescaler of the enumeration
(R79, R92, R102). -/
theorem scriptOf_capture {i : Instr} {s : State} {wm : WaveformMode} {ps : Prescaler}
    (hw : i.wf s.cfg s.target = true) (h : .capture wm ps ∈ scriptOf i s.target s) :
    Catalogued s.cfg s.target wm ps := by
  have hc := (scriptOf_phase_ops i s _ h).1 wm ps rfl
  cases i with
  | config wmid psid =>
    simp only [Instr.wf, Bool.and_eq_true] at hw
    obtain ⟨⟨hcat, -⟩, -⟩ := hw
    simp only [scriptOf, configScript] at h
    split at h
    · rename_i hwm hps
      obtain ⟨rfl, rfl⟩ : wm = _ ∧ ps = _ := by simpa using h
      exact ⟨hcat, wmDecode_mem hwm, psDecode_coded hps⟩
    · simp at h
  | _ => cases hc

/-- Good engines, and a target that is configured while a command other than CONFIG is in progress on
it: what a running command keeps at every point, a reset included. -/
structure EnginesOk (c : Config) (d : Dev) (i : Instr) (s : State) : Prop where
  ok : ∀ d', engineOk c d' (s.inst.get d') = true
  configured : isConfig i = false → (s.inst.get d).busy = true →
    (s.inst.get d).phase ≠ .unconfigured

theorem EnginesOk.interleave {c : Config} {d : Dev} {i : Instr} {s : State}
    (h : EnginesOk c d i s) : EnginesOk c d i (interleave s) where
  ok := fun d' => interleave_engineOk (h.ok d')
  configured := fun hi => interleave_get
    (P := fun x => x.busy = true → x.phase ≠ .unconfigured) d Bool.noConfusion (h.configured hi)

theorem EnginesOk.seqStep {c : Config} {d : Dev} {i : Instr} {s : State} {op : MicroOp}
    (hcap : ∀ wm ps, op = .capture wm ps → Catalogued c d wm ps)
    (hstart : op = .start → isConfig i = false) (l : Bool) (hb : (s.inst.get d).busy = true)
    (h : EnginesOk c d i s) : EnginesOk c d i (seqStep d op l s) := by
  constructor
  · intro d'
    rw [seqStep_inst, PerDev.get_set]
    split
    · rename_i hd
      subst hd
      rw [advanced_engineOk]
      exact engine_engineOk hcap (fun ho => h.configured (hstart ho) hb) (h.ok d')
    · exact h.ok d'
  · intro hi _
    rw [seqStep_inst, PerDev.get_set_same, advanced_phase]
    exact engine_phase_ne op (h.configured hi hb)

/-- A legal command leaves every engine good. -/
theorem runScript_engineOk {i : Instr} {s : State}
    (hl : legality s.cfg s.target (s.inst.get s.target).phase i = none)
    (h : ∀ d, engineOk s.cfg d (s.inst.get d) = true) :
    ∀ d, engineOk s.cfg d
      ((runScript s.target (scriptOf i s.target s) (s.accept i)).inst.get d) = true := by
  obtain ⟨hp, hw⟩ := (legality_eq_none_iff _ _ _ _).mp hl
  refine (runScript_induct_busy (P := EnginesOk s.cfg s.target i) s.target
    (fun _ => EnginesOk.interleave) _ _ (fun op ho l t hb => ?_) ⟨fun d => ?_, fun hi _ => ?_⟩).ok
  · exact EnginesOk.seqStep (fun wm ps e => scriptOf_capture hw (e ▸ ho))
      (fun e => isConfig_of_isActivate ((scriptOf_phase_ops i s op ho).2 e)) l hb
  · rw [State.accept_inst, PerDev.get_set]
    split
    · rename_i hd
      exact hd ▸ h s.target
    · exact h d
  · rw [State.accept_inst, PerDev.get_set_same]
    exact hp.resolve_right (by simp [hi])

/-! ### Every step keeps the invariant (O57) -/

theorem interleave_Inv {s : State} (h : s.Inv = true) : (interleave s).Inv = true := by
  obtain ⟨hm, hi, he⟩ := State.Inv_iff.mp h
  refine State.Inv_iff.mpr ⟨interleave_mem_wf hm, fun d => interleave_idle (hi d), fun d => ?_⟩
  rw [interleave_cfg]
  exact interleave_engineOk (he d)

theorem passOver_Inv {s : State} (i : Instr) (h : s.Inv = true) : (s.passOver i).Inv = true := by
  obtain ⟨hm, hi, he⟩ := State.Inv_iff.mp h
  refine State.Inv_iff.mpr ⟨hm, fun d => ?_, fun d => ?_⟩ <;>
    rw [State.passOver_inst, PerDev.get_set]
  · split
    · rfl
    · exact hi d
  · split
    · rename_i hd
      exact hd ▸ he s.target
    · exact he d

theorem runScript_Inv {i : Instr} {s : State}
    (hl : legality s.cfg s.target (s.inst.get s.target).phase i = none)
    (hg : guardFails i = false) (h : s.Inv = true) :
    (runScript s.target (scriptOf i s.target s) (s.accept i)).Inv = true := by
  obtain ⟨hm, hi, he⟩ := State.Inv_iff.mp h
  refine State.Inv_iff.mpr ⟨runScript_mem_wf hm, fun d => ?_, ?_⟩
  · rcases eq_or_ne d s.target with rfl | hd
    · obtain ⟨op, ops, hs⟩ := List.exists_cons_of_ne_nil (scriptOf_ne_nil hl hg)
      rw [hs]
      exact runScript_idle _ _ _ _ (by simp)
    · exact runScript_others_idle hd _ (by simpa [PerDev.get_set_ne _ _ hd] using hi d)
  · rw [runScript_cfg, State.accept_cfg]
    exact runScript_engineOk hl he

theorem exec_Inv {i : Instr} {s t : State} (h : s.Inv = true) (he : exec i s = .next t) :
    t.Inv = true := by
  obtain ⟨hl, ⟨_, rfl⟩ | ⟨hg, _, rfl⟩⟩ := exec_next_cases he
  · exact passOver_Inv i h
  · exact runScript_Inv hl hg h

theorem present_Inv (s : State) (d : Dev) (rest : List (Dev × Word)) :
    (s.present d rest).Inv = s.Inv := rfl

/-- Settles O57: between commands only a CONFIG of the catalog, an ACTIVATE of a configured engine and
a reset change what the invariant speaks of. -/
theorem stepKeepsInv : Obligations.StepKeepsInv := by
  intro s t h hs
  obtain ⟨-, hidle, -⟩ := State.Inv_iff.mp h
  rcases step_next_idle hidle hs with ⟨d, rest, i, he⟩ | rfl
  · exact exec_Inv (by rwa [present_Inv]) he
  · exact interleave_Inv h

/-! ### The phase machine (O13, O37) -/

/-- The phase is the first thing legality looks at (R17, R81). -/
theorem exec_unconfigured {s : State} {i : Instr} (hp : (s.inst.get s.target).phase = .unconfigured)
    (hc : isConfig i = false) : exec i s = .refused .unconfigured := by
  simp only [exec_eq_perform, perform, dispose, legality, if_pos (And.intro hp hc)]

/-- Settles O13, by the order of the checks of legality. -/
theorem unconfiguredRefusesOtherCommands : Obligations.UnconfiguredRefusesOtherCommands :=
  fun _ _ => exec_unconfigured

/-- The phase of an engine after a micro-step: only a capture and a start change it (R17). -/
def MicroOp.phase (p : Phase) : MicroOp → Phase
  | .capture _ _ => .uninitialized
  | .start => .running
  | _ => p

theorem engine_phase (s : State) (x : Inst) (op : MicroOp) :
    (op.engine s x).phase = op.phase x.phase := by
  cases op <;> rfl

theorem seqStep_noReset {s : State} (d : Dev) (op : MicroOp) (l : Bool) (h : s.noReset = true) :
    (seqStep d op l s).noReset = true := by
  rwa [State.noReset, seqStep_agenda]

/-- With no reset to come, every micro-step of a script takes its part in the phase. -/
theorem runScript_phase (d : Dev) (ops : List MicroOp) (s : State) (hn : s.noReset = true)
    (hb : (s.inst.get d).busy = true) :
    ((runScript d ops s).inst.get d).phase = ops.foldl MicroOp.phase (s.inst.get d).phase := by
  induction ops generalizing s with
  | nil => rfl
  | cons op ops ih =>
    obtain ⟨hi, hn'⟩ := interleave_noReset hn
    have hp : ((seqStep d op ops.isEmpty (interleave s)).inst.get d).phase =
        op.phase (s.inst.get d).phase := by
      rw [seqStep_inst, PerDev.get_set_same, advanced_phase, engine_phase, hi]
    rw [runScript, hi, if_pos hb, List.foldl_cons, ← hp]
    cases ops with
    | nil => rfl
    | cons op' ops =>
      refine ih _ (seqStep_noReset d op _ hn') ?_
      simp [seqStep_inst, Inst.advanced, engine_busy, hi, hb]

/-- Micro-steps that neither capture nor start keep the phase. -/
theorem foldl_phase_eq {ops : List MicroOp} (hc : ∀ wm ps, .capture wm ps ∉ ops)
    (hs : .start ∉ ops) (p : Phase) : ops.foldl MicroOp.phase p = p := by
  induction ops generalizing p with
  | nil => rfl
  | cons op ops ih =>
    have hop : op.phase p = p := by
      cases op with
      | capture wm ps => exact absurd List.mem_cons_self (hc wm ps)
      | start => exact absurd List.mem_cons_self hs
      | _ => rfl
    rw [List.foldl_cons, hop]
    exact ih (fun wm ps h => hc wm ps (List.mem_cons_of_mem _ h))
      (fun h => hs (List.mem_cons_of_mem _ h)) p

/-- The phase a command's micro-steps lead to (R17, R102, R103). -/
theorem scriptOf_phase {i : Instr} {s : State}
    (hl : legality s.cfg s.target (s.inst.get s.target).phase i = none)
    (hg : guardFails i = false) (p : Phase) :
    (scriptOf i s.target s).foldl MicroOp.phase p =
      if isConfig i = true then .uninitialized else if isActivate i = true then .running else p := by
  cases hc : isConfig i with
  | true =>
    cases i with
    | config wmid psid =>
      have hne := scriptOf_ne_nil hl hg
      simp only [scriptOf, configScript] at hne ⊢
      split at hne
      · rfl
      · exact absurd rfl hne
    | _ => cases hc
  | false =>
    have hcap : ∀ wm ps, .capture wm ps ∉ scriptOf i s.target s := fun wm ps h =>
      Bool.false_ne_true (hc.symm.trans ((scriptOf_phase_ops i s _ h).1 wm ps rfl))
    cases ha : isActivate i with
    | true =>
      cases i with
      | activate ie val =>
        simp [scriptOf, activateScript, MicroOp.phase]
      | _ => cases ha
    | false =>
      exact foldl_phase_eq hcap
        (fun h => Bool.false_ne_true (ha.symm.trans ((scriptOf_phase_ops i s _ h).2 rfl))) p

/-- Settles O37: by the phase that a script's micro-steps lead to. -/
theorem phaseMachine : Obligations.PhaseMachine := by
  intro s i hn
  refine ⟨exec_unconfigured, fun t he => ?_⟩
  obtain ⟨hl, ⟨hg, rfl⟩ | ⟨hg, -, rfl⟩⟩ := exec_next_cases he
  · simp [isConfig_of_guardFails hg, isActivate_of_guardFails hg]
  · have hp := runScript_phase s.target (scriptOf i s.target s) (s.accept i) hn (by simp)
    rw [hp, scriptOf_phase hl hg, State.accept_inst, PerDev.get_set_same]

/-! ### Decoding the latched word (O9, O10) -/

/-- Settles O9: a step of a busy machine goes on with a command and takes no word. -/
theorem wordWaitsWhileBusy : Obligations.WordWaitsWhileBusy := by
  intro s t d hb h
  obtain ⟨d', hd⟩ := busyDev_isSome hb
  rw [step_of_busyDev hd] at h
  exact resume_port h

theorem extractLsb'_and_eq {w mask pattern : Word} (h : w &&& mask = pattern) (a n : Nat) :
    w.extractLsb' a n &&& mask.extractLsb' a n = pattern.extractLsb' a n := by
  rw [← h, BitVec.extractLsb'_and]

/-- The mask of every row covers the opcode field (R76). -/
theorem opcode_masked : ∀ r ∈ opcodeTable, r.mask.extractLsb' 28 4 = BitVec.allOnes 4 := by decide

theorem fieldOp_of_covers {r : OpcodeRow} {w : Word} (hr : r ∈ opcodeTable)
    (h : r.covers w = true) : fieldOp w = r.pattern.extractLsb' 28 4 := by
  have hm : r.mask.extractLsb' 28 4 = BitVec.allOnes 4 := opcode_masked r hr
  have := extractLsb'_and_eq (beq_iff_eq.mp h) 28 4
  rwa [hm, BitVec.and_allOnes] at this

/-- The rows of the opcode table have different opcodes. -/
theorem row_eq_of_opcode : ∀ r ∈ opcodeTable, ∀ r' ∈ opcodeTable,
    r.pattern.extractLsb' 28 4 = r'.pattern.extractLsb' 28 4 → r = r' := by decide

theorem row_unique {r r' : OpcodeRow} {w : Word} (hr : r ∈ opcodeTable) (hr' : r' ∈ opcodeTable)
    (h : r.covers w = true) (h' : r'.covers w = true) : r = r' :=
  row_eq_of_opcode r hr r' hr' ((fieldOp_of_covers hr h).symm.trans (fieldOp_of_covers hr' h'))

theorem decode_of_covers {r : OpcodeRow} {w : Word} (hr : r ∈ opcodeTable)
    (h : r.covers w = true) : decode w = .ok (r.op.operands w) := by
  unfold decode
  cases hf : opcodeTable.find? (·.covers w) with
  | none => exact absurd h (List.find?_eq_none.mp hf r hr)
  | some r' =>
    have h' : r'.covers w = true := List.find?_some (p := fun x : OpcodeRow => x.covers w) hf
    rw [row_unique hr (List.mem_of_find?_eq_some hf) h h']

theorem encodedInRow (i : Instr) : Laws.EncodedInRow.Statement i := by
  cases i with
  | config wmid psid => exact Laws.EncodedInRow.config wmid psid
  | activate ie val => exact Laws.EncodedInRow.activate ie val
  | actch ch com ie val => exact Laws.EncodedInRow.actch ch com ie val
  | actpin ch => exact Laws.EncodedInRow.actpin ch
  | updtop val => exact Laws.EncodedInRow.updtop val
  | updcmp ch val => exact Laws.EncodedInRow.updcmp ch val

theorem Channel.ofIndex_index (ch : Channel) : Channel.ofIndex ch.index = ch := by
  cases ch <;> decide

/-- The VAL operand of a command that has one (R75, R76). -/
def valOf : Instr → Option Half
  | .config _ _ => none
  | .activate _ val => some val
  | .actch _ _ _ val => some val
  | .actpin _ => none
  | .updtop val => some val
  | .updcmp _ val => some val

theorem fieldVal_encode {i : Instr} {val : Half} (h : valOf i = some val) :
    fieldVal (encode i) = val := by
  cases i <;> cases h
  all_goals
    ext k hk
    simp only [fieldVal, encode]
    interval_cases k <;> simp

theorem fieldCh_encode {i : Instr} {ch : Channel} (h : channelOf i = some ch) :
    fieldCh (encode i) = ch := by
  have hx : (encode i).extractLsb' 26 2 = ch.index := by
    cases i <;> cases h
    all_goals
      ext k hk
      simp only [encode]
      interval_cases k <;> simp
  rw [fieldCh, hx, Channel.ofIndex_index]

theorem fieldCom_encode (ch : Channel) (com : BitVec 2) (ie : Bool) (val : Half) :
    fieldCom (encode (.actch ch com ie val)) = com := by
  ext k hk
  simp only [fieldCom, encode]
  interval_cases k <;> simp

theorem fieldWmid_encode (wmid : BitVec 6) (psid : BitVec 4) :
    fieldWmid (encode (.config wmid psid)) = wmid := by
  ext k hk
  simp only [fieldWmid, encode]
  interval_cases k <;> simp

theorem fieldPsid_encode (wmid : BitVec 6) (psid : BitVec 4) :
    fieldPsid (encode (.config wmid psid)) = psid := by
  ext k hk
  simp only [fieldPsid, encode]
  interval_cases k <;> simp

/-- Each field of an encoded command holds its operand (R75, R84). -/
theorem operands_encode (i : Instr) : (Laws.rowOf i).op.operands (encode i) = i := by
  cases i with
  | config wmid psid => exact congrArg₂ Instr.config (fieldWmid_encode ..) (fieldPsid_encode ..)
  | activate ie val =>
    have hie : fieldIe (encode (.activate ie val)) = ie := by simp [fieldIe, encode]
    exact congrArg₂ Instr.activate hie (fieldVal_encode rfl)
  | actch ch com ie val =>
    have hie : fieldIe (encode (.actch ch com ie val)) = ie := by simp [fieldIe, encode]
    have hch := fieldCh_encode (i := .actch ch com ie val) rfl
    have hval := fieldVal_encode (i := .actch ch com ie val) rfl
    simp only [Laws.rowOf, Op.operands, hie, hch, fieldCom_encode, hval]
  | actpin ch => exact congrArg Instr.actpin (fieldCh_encode rfl)
  | updtop val => exact congrArg Instr.updtop (fieldVal_encode rfl)
  | updcmp ch val => exact congrArg₂ Instr.updcmp (fieldCh_encode rfl) (fieldVal_encode rfl)

/-- Decoding the word of a command gives back the command (R84, R85). -/
theorem decode_encode (i : Instr) : decode (encode i) = .ok i := by
  obtain ⟨hr, hc⟩ := encodedInRow i
  rw [decode_of_covers hr (beq_iff_eq.mpr hc), operands_encode]

theorem latchedScript_of_encode {d : Dev} {s : State} {i : Instr}
    (h : (s.inst.get d).cmd = encode i) : latchedScript d s = scriptOf i d s := by
  rw [latchedScript, h, decode_encode]

theorem latchedHazard_of_encode {d : Dev} {s : State} {i : Instr}
    (h : (s.inst.get d).cmd = encode i) : latchedHazard d s = hazardOf i d s := by
  rw [latchedHazard, h, decode_encode]

/-- Settles O10: the latch decodes to the command it was encoded from. -/
theorem stepResumesLatchedCommand : Obligations.StepResumesLatchedCommand := by
  intro s d i hb hcmd hz hlen
  rw [step_of_busyDev (busyDev_unique hb)]
  simp only [resume, latchedHazard_of_encode hcmd, hz, latchedScript_of_encode hcmd, if_pos hlen]

/-! ### Storage (O49, O55) -/

theorem State.reg_setReg (s : State) (had : s.cfg.addrOk = true) (r r' : Reg) (v : Half) :
    (s.setReg r v).reg r' = if r' = r then fitReg r v else s.reg r' := by
  split
  · rename_i h
    rw [h, State.reg_setReg_same]
  · rename_i h
    exact State.reg_setReg_ne had h v

/-- Settles O49, by the laws of the register map's storage. -/
theorem registersArePlainStorage : Obligations.RegistersArePlainStorage := by
  intro s r r' v a hc
  exact ⟨State.reg_setReg_same s r v, fun hne => State.reg_setReg_ne (Config.wf_addrOk hc) hne v,
    Memory.read_writeReg_outside s.cfg s.mem r v⟩

/-- The register map after writing a list of distinct registers: each holds the value listed for it,
every other what it held. -/
theorem readReg_foldl_writeReg {c : Config} (had : c.addrOk = true) (l : List (Reg × Half))
    (hnd : (l.map Prod.fst).Nodup) (m : Memory) (r : Reg) :
    (∀ v, (r, v) ∈ l →
      Memory.readReg c (l.foldl (fun m p => Memory.writeReg c m p.1 p.2) m) r = fitReg r v) ∧
    (r ∉ l.map Prod.fst →
      Memory.readReg c (l.foldl (fun m p => Memory.writeReg c m p.1 p.2) m) r =
        Memory.readReg c m r) := by
  induction l generalizing m with
  | nil => exact ⟨fun v h => absurd h List.not_mem_nil, fun _ => rfl⟩
  | cons p l ih =>
    obtain ⟨hp, hnd⟩ := List.nodup_cons.mp hnd
    obtain ⟨hin, hout⟩ := ih hnd (Memory.writeReg c m p.1 p.2)
    refine ⟨fun v h => ?_, fun h => ?_⟩
    · rcases List.mem_cons.mp h with rfl | h
      · exact (hout hp).trans (Memory.readReg_writeReg_same c m r v)
      · exact hin v h
    · obtain ⟨hne, hr⟩ := not_or.mp (List.mem_cons.not.mp h)
      exact (hout hr).trans (Memory.readReg_writeReg_ne had m hne p.2)

theorem readReg_nil (c : Config) (r : Reg) : Memory.readReg c [] r = 0 := by
  simp only [Memory.readReg, Memory.read]
  split <;> rfl

/-- Settles O55: reset writes the listed registers into an empty map. -/
theorem csrResetIsHonoured : Obligations.CsrResetIsHonoured := by
  intro c r hc hnd hfit
  obtain ⟨hin, hout⟩ := readReg_foldl_writeReg (Config.wf_addrOk hc) c.csrReset hnd [] r
  exact ⟨fun v h => (hin v h).trans (hfit (r, v) h), fun h => (hout h).trans (readReg_nil c r)⟩

/-! ### What a command does not write (O36, O39) -/

/-- Settles O36: the micro-steps change one engine, and write registers of its own or of the ports. -/
theorem otherInstancesAreUntouched : Obligations.OtherInstancesAreUntouched := by
  intro s t i d r hc hq he hd
  obtain ⟨-, ⟨-, rfl⟩ | ⟨-, -, rfl⟩⟩ := exec_next_quiet he hq
  · exact ⟨by rw [State.passOver_inst, PerDev.get_set_ne _ _ hd], fun _ => rfl⟩
  · refine ⟨?_, fun ho => quietRun_accept_reg (Config.wf_addrOk hc) fun hr => ?_⟩
    · rw [quietRun_others _ _ _ hd, State.accept_inst, PerDev.get_set_ne _ _ hd]
    · rcases scriptOf_writes hr with h | ⟨-, h⟩ <;> rw [ho] at h
      · exact hd (Option.some.inj h)
      · cases h

/-- What a command other than ACTIVATE writes: ACTCH its CTRLA and IMASK; else compare
registers, CEIL and port registers (R45, R118). -/
theorem scriptOf_writes_of_not_activate {i : Instr} {s : State} {r : Reg}
    (hok : s.target.topOk (s.inst.get s.target).wm.top = true) (ha : isActivate i = false)
    (h : r ∈ (scriptOf i s.target s).flatMap MicroOp.writes) :
    ((∃ ch com ie val, i = .actch ch com ie val) ∧ (r = .ctrlA s.target ∨ r = .imask s.target)) ∨
      (∃ k, r = .compare s.target k) ∨ r = .ceil ∨ ownerOf r = none := by
  cases i with
  | config wmid psid =>
    simp only [scriptOf, configScript] at h
    split at h <;> simp [MicroOp.writes] at h
  | activate ie val => cases ha
  | actch ch com ie val =>
    simp only [scriptOf, actchScript] at h
    split at h <;> simp [MicroOp.writes] at h
    rcases h with rfl | rfl | rfl <;> simp
  | actpin ch =>
    simp only [scriptOf, actpinScript] at h
    split at h <;> simp [MicroOp.writes] at h
    rcases h with rfl | rfl <;> simp [ownerOf]
  | updtop val =>
    simp only [scriptOf, updtopScript, ceilingOp] at h
    split at h <;> simp [MicroOp.writes] at h
    rename_i r' hr'
    obtain ⟨-, -, -, -, hr⟩ := topReg_ne hok hr'
    rw [h]
    exact .inr (hr.imp (fun e => ⟨0, e⟩) .inl)
  | updcmp ch val =>
    simp only [scriptOf, updcmpScript] at h
    split at h <;> simp [MicroOp.writes] at h
    rename_i k _
    exact .inr (.inl ⟨k, h⟩)

theorem ctrlB_not_written {i : Instr} {s : State}
    (hok : s.target.topOk (s.inst.get s.target).wm.top = true) (ha : isActivate i = false)
    (d : Dev) : .ctrlB d ∉ (scriptOf i s.target s).flatMap MicroOp.writes := by
  intro h
  simpa [ownerOf] using scriptOf_writes_of_not_activate hok ha h

/-- Only ACTIVATE and ACTCH write CTRLA and IMASK. -/
theorem ctrlA_imask_not_written {i : Instr} {s : State} {r : Reg}
    (hok : s.target.topOk (s.inst.get s.target).wm.top = true) (ha : isActivate i = false)
    (hi : ¬∃ ch com ie val, i = .actch ch com ie val)
    (hr : r = .ctrlA s.target ∨ r = .imask s.target) :
    r ∉ (scriptOf i s.target s).flatMap MicroOp.writes := by
  intro h
  have hw := (scriptOf_writes_of_not_activate hok ha h).resolve_left fun hw => hi hw.1
  rcases hr with rfl | rfl <;> simp [ownerOf] at hw

/-- A register that a command does not write reads as before. -/
theorem exec_reg_of_not_written {i : Instr} {s t : State} {r : Reg} (had : s.cfg.addrOk = true)
    (hq : s.quiet = true) (he : exec i s = .next t)
    (hr : r ∉ (scriptOf i s.target s).flatMap MicroOp.writes) : t.reg r = s.reg r := by
  obtain ⟨-, ⟨-, rfl⟩ | ⟨-, -, rfl⟩⟩ := exec_next_quiet he hq
  · rfl
  · exact quietRun_accept_reg had hr

/-- Settles O39: no command but ACTIVATE writes a control register B. -/
theorem onlyActivateStartsClock : Obligations.OnlyActivateStartsClock := by
  intro s t i hc hq hok he ha d
  exact exec_reg_of_not_written (Config.wf_addrOk hc) hq he (ctrlB_not_written hok ha d)

/-! ### What a command does not read (O40) -/

/-- Two machines that differ in what register `r` holds, and in nothing else that is read. -/
structure AgreeOff (r : Reg) (s s' : State) : Prop where
  cfg : s'.cfg = s.cfg
  inst : s'.inst = s.inst
  trace : s'.trace = s.trace
  regs : ∀ r', r' ≠ r → s'.reg r' = s.reg r'

theorem AgreeOff.engine {r : Reg} {s s' : State} (h : AgreeOff r s s') {op : MicroOp}
    (hop : r ∉ op.loads) (x : Inst) : op.engine s' x = op.engine s x := by
  cases op with
  | load r' =>
    have hne : r' ≠ r := fun e => hop (by simp [MicroOp.loads, e])
    simp only [MicroOp.engine, h.regs r' hne]
  | _ => rfl

theorem AgreeOff.events {r : Reg} {s s' : State} (h : AgreeOff r s s') {op : MicroOp}
    (hop : r ∉ op.loads) (t : Byte) : op.events s' t = op.events s t := by
  cases op with
  | load r' =>
    have hne : r' ≠ r := fun e => hop (by simp [MicroOp.loads, e])
    simp only [MicroOp.events, h.regs r' hne]
  | _ => rfl

/-- A micro-step that does not read `r` keeps two such machines in agreement. -/
theorem AgreeOff.seqStep {r : Reg} {s s' : State} (h : AgreeOff r s s') (had : s.cfg.addrOk = true)
    {op : MicroOp} (hop : r ∉ op.loads) (d : Dev) (l : Bool) :
    AgreeOff r (seqStep d op l s) (seqStep d op l s') where
  cfg := by simp [h.cfg]
  inst := by rw [seqStep_inst, seqStep_inst, h.inst, h.engine hop]
  trace := by rw [seqStep_trace, seqStep_trace, h.trace, h.inst, h.events hop]
  regs := by
    intro r' hr'
    rw [seqStep_reg, seqStep_reg, h.inst]
    cases op.store (s.inst.get d).t with
    | none => exact h.regs r' hr'
    | some p =>
      have had' : s'.cfg.addrOk = true := by rw [h.cfg, had]
      simp only [State.reg_setReg, had, had', h.regs r' hr']

theorem AgreeOff.passPoint {r : Reg} {s s' : State} (h : AgreeOff r s s') :
    AgreeOff r s.passPoint s'.passPoint :=
  ⟨h.cfg, h.inst, h.trace, h.regs⟩

theorem AgreeOff.quietRun {r : Reg} (d : Dev) (ops : List MicroOp) {s s' : State}
    (h : AgreeOff r s s') (had : s.cfg.addrOk = true) (hops : ∀ op ∈ ops, r ∉ op.loads) :
    AgreeOff r (quietRun d ops s) (quietRun d ops s') := by
  induction ops generalizing s s' with
  | nil => exact h
  | cons op ops ih =>
    exact ih (h.passPoint.seqStep had (hops op List.mem_cons_self) d _) (by simpa using had)
      fun o ho => hops o (List.mem_cons_of_mem _ ho)

theorem AgreeOff.setReg {s : State} (had : s.cfg.addrOk = true) (r : Reg) (v : Half) :
    AgreeOff r s (s.setReg r v) :=
  ⟨rfl, rfl, rfl, fun _ hne => State.reg_setReg_ne had hne v⟩

theorem AgreeOff.accept {r : Reg} {s : State} {v : Half} (h : AgreeOff r s (s.setReg r v))
    (i : Instr) : AgreeOff r (s.accept i) ((s.setReg r v).accept i) :=
  ⟨rfl, rfl, rfl, h.regs⟩

theorem scriptOf_setReg (i : Instr) (d : Dev) (s : State) (r : Reg) (v : Half) :
    scriptOf i d (s.setReg r v) = scriptOf i d s := by
  cases i <;> rfl

theorem hazardOf_setReg (i : Instr) (d : Dev) (s : State) (r : Reg) (v : Half) :
    hazardOf i d (s.setReg r v) = hazardOf i d s := by
  cases i <;> rfl

/-- Settles O40: a command's micro-steps are chosen without the register map, and none of them reads
the register. -/
theorem unreadRegistersDoNotMatter : Obligations.UnreadRegistersDoNotMatter := by
  intro s t i r v hc hq hr he
  have had := Config.wf_addrOk hc
  have hagree := AgreeOff.setReg had r v
  obtain ⟨hl, ⟨hg, rfl⟩ | ⟨hg, hz, rfl⟩⟩ := exec_next_quiet he hq
  · refine ⟨(s.setReg r v).passOver i, ?_, rfl, rfl, hagree.regs⟩
    rw [exec_eq_perform, perform_outOfRange (by simpa using hl) hg]
  · have hrun := AgreeOff.quietRun s.target (scriptOf i s.target s) (hagree.accept i) had
      fun op ho hmem => Bool.false_ne_true (hr.symm.trans (scriptOf_loads ho r hmem))
    refine ⟨_, ?_, hrun.inst, hrun.trace, hrun.regs⟩
    have := exec_quiet (i := i) (s := s.setReg r v) hl hg
      ((hazardOf_setReg i s.target s r v).trans hz) (quiet_of_agenda rfl hq)
    rwa [State.setReg_target, scriptOf_setReg] at this

/-! ### The registers at the end of a command -/

/-- The temporary and the registers as a command sees them. -/
def State.view (s : State) (d : Dev) : Byte × (Reg → Half) := ((s.inst.get d).t, s.reg)

/-- What a micro-step makes of the temporary: only a read changes it (R21). -/
def MicroOp.temp (v : Byte × (Reg → Half)) : MicroOp → Byte
  | .load r => (v.2 r).setWidth 8
  | _ => v.1

/-- What a micro-step makes of the temporary and the registers. -/
def MicroOp.effect (v : Byte × (Reg → Half)) (op : MicroOp) : Byte × (Reg → Half) :=
  (op.temp v,
    match op.store v.1 with
    | some (r, x) => Function.update v.2 r (fitReg r x)
    | none => v.2)

@[simp] theorem State.passPoint_view (s : State) (d : Dev) : s.passPoint.view d = s.view d := rfl

@[simp] theorem State.accept_view (s : State) (i : Instr) (d : Dev) :
    (s.accept i).view d = s.view d := by
  refine Prod.ext ?_ rfl
  simp only [State.view, State.accept_inst, PerDev.get_set]
  split
  · rename_i h
    rw [h]
  · rfl

theorem seqStep_view {s : State} (had : s.cfg.addrOk = true) (d : Dev) (op : MicroOp) (l : Bool) :
    (seqStep d op l s).view d = op.effect (s.view d) := by
  refine Prod.ext ?_ (funext fun r => ?_)
  · simp only [State.view, MicroOp.effect, seqStep_inst, PerDev.get_set_same]
    cases op <;> cases l <;> rfl
  · simp only [State.view, MicroOp.effect, seqStep_reg]
    cases op.store (s.inst.get d).t with
    | none => rfl
    | some p => simp only [State.reg_setReg s had, Function.update_apply]

/-- With no move to come, a command's registers are those its micro-steps compute one by one. -/
theorem quietRun_view (d : Dev) (ops : List MicroOp) {s : State} (had : s.cfg.addrOk = true) :
    (quietRun d ops s).view d = ops.foldl MicroOp.effect (s.view d) := by
  induction ops generalizing s with
  | nil => rfl
  | cons op ops ih =>
    rw [quietRun, ih (by simpa using had), List.foldl_cons, seqStep_view (by simpa using had),
      State.passPoint_view]

theorem quietRun_accept_reg_eq {ops : List MicroOp} {s : State} (i : Instr)
    (had : s.cfg.addrOk = true) (r : Reg) :
    (quietRun s.target ops (s.accept i)).reg r =
      (ops.foldl MicroOp.effect (s.view s.target)).2 r := by
  have h := quietRun_view s.target ops (s := s.accept i) had
  rw [State.accept_view] at h
  exact congrFun (congrArg Prod.snd h) r

/-- Zero writes leave their registers zero and every other one as it was. -/
theorem foldl_effect_zeroWrites (rs : List Reg) (v : Byte × (Reg → Half)) :
    (rs.map fun r => MicroOp.write r 0).foldl MicroOp.effect v =
      (v.1, fun r => if r ∈ rs then 0 else v.2 r) := by
  induction rs generalizing v with
  | nil => simp
  | cons r rs ih =>
    rw [List.map_cons, List.foldl_cons, ih]
    refine Prod.ext rfl (funext fun r' => ?_)
    simp only [MicroOp.effect, MicroOp.store, Function.update_apply, fitReg_zero, List.mem_cons]
    split
    · simp [*]
    · simp [*]

theorem setBit_zero (mask : Byte) (f : Bool) : setBit 0#8 mask f = if f then mask else 0 := by
  simp [setBit]

/-- R104: what ACTIVATE leaves in the control registers and the mask, whatever they held. -/
theorem activate_control {s : State} {ie : Bool} {val : Half} (i : Instr) (hc : s.cfg.wf = true)
    (hok : s.target.topOk (s.inst.get s.target).wm.top = true) :
    let t := quietRun s.target (activateScript ie val s.target s) (s.accept i)
    t.reg (.ctrlA s.target) = busByte (wgmA (s.dev s.target) (s.inst.get s.target).wm.mode) ∧
    t.reg (.ctrlB s.target) = busByte (wgmB (s.dev s.target) (s.inst.get s.target).wm.mode |||
      csField (s.dev s.target) (clockCode s.target s)) ∧
    t.reg (.imask s.target) = busByte (if ie then toieMask (s.dev s.target) else 0) := by
  obtain ⟨-, -, -, hzero⟩ := Config.wf_dev hc s.target
  have hz := mem_zeroOrder (c := s.dev s.target) hzero s.target
  simp only [quietRun_accept_reg_eq i (Config.wf_addrOk hc), activateScript, zeroScript_eq,
    List.foldl_append, foldl_effect_zeroWrites, List.foldl_cons, List.foldl_nil, ceilingOp]
  cases ht : topReg s.target (s.inst.get s.target).wm with
  | none => simp [MicroOp.effect, MicroOp.temp, MicroOp.store, hz, setBit_zero]
  | some r =>
    obtain ⟨hA, -, -, hI, -⟩ := topReg_ne hok ht
    simp [MicroOp.effect, MicroOp.temp, MicroOp.store, hz, setBit_zero, hA.symm, hI.symm]

/-- R108: what ACTCH makes of CTRLA and IMASK. -/
theorem actch_control {s : State} {ch : Channel} {k : Slot} {com : BitVec 2} {ie : Bool} {val : Half}
    (i : Instr) (had : s.cfg.addrOk = true) (hk : slot ch = some k) :
    let t := quietRun s.target (actchScript ch com ie val s.target s) (s.accept i)
    t.reg (.ctrlA s.target) = busByte ((s.reg (.ctrlA s.target)).setWidth 8 |||
      comField (s.dev s.target) k (comName (s.dev s.target) com)) ∧
    t.reg (.imask s.target) = busByte (setBit ((s.reg (.imask s.target)).setWidth 8)
      (ocieMask (s.dev s.target) k) ie) := by
  simp [quietRun_accept_reg_eq i had, actchScript, hk, State.view, MicroOp.effect, MicroOp.temp,
    MicroOp.store]

/-! ### Reserved bits (O41) -/

theorem busByte_and (a b : Byte) : busByte a &&& busByte b = busByte (a &&& b) :=
  (BitVec.setWidth_and ..).symm

theorem busByte_and_eq_zero {a k : Byte} (h : a &&& k = 0) : busByte a &&& busByte k = 0 := by
  rw [busByte_and, h]
  rfl

theorem busByte_and_congr {a b k : Byte} (h : a &&& k = b &&& k) :
    busByte a &&& busByte k = busByte b &&& busByte k := by
  rw [busByte_and, busByte_and, h]

/-- An 8-bit register holds a byte, zero-extended (R75). -/
theorem busByte_reg (s : State) {r : Reg} (h : r.bytes = 1) :
    busByte ((s.reg r).setWidth 8) = s.reg r := by
  simp [State.reg, Memory.readReg, h, busByte]

/-- The bits `k` of a register survive an OR that is zero there. -/
theorem or_and_of_disjoint {v mask k : Byte} (h : mask &&& k = 0) : (v ||| mask) &&& k = v &&& k := by
  rw [BitVec.and_comm, BitVec.and_or_distrib_left, BitVec.and_comm k mask, h, BitVec.and_comm]
  exact BitVec.or_zero

theorem setBit_and_of_disjoint {v mask k : Byte} (f : Bool) (h : mask &&& k = 0) :
    setBit v mask f &&& k = v &&& k := by
  have hf : (if f then mask else 0) &&& k = 0 := by
    split
    · exact h
    · exact BitVec.zero_and
  rw [setBit, or_and_of_disjoint hf]
  ext j hj
  have hb : mask[j] = true → k[j] = false := by
    simpa using congrArg (fun x : Byte => x[j]) h
  cases hm : mask[j] <;> simp [hm, hb]

theorem default_comField_reserved (d : Dev) (k : Slot) (m : ComMode) :
    comField (Config.default.dev.get d) k m &&& 0x0C = 0 := by
  cases d <;> cases m <;> revert k <;> decide

theorem default_ocieMask_reserved (d : Dev) (k : Slot) :
    ocieMask (Config.default.dev.get d) k &&& 0xF8 = 0 := by
  cases d <;> revert k <;> decide

theorem default_toieMask_reserved (d : Dev) (ie : Bool) :
    (if ie then toieMask (Config.default.dev.get d) else 0) &&& 0xF8 = 0 := by
  cases d <;> cases ie <;> decide

theorem default_wgmA_reserved (d : Dev) (m : BitVec 6) :
    wgmA (Config.default.dev.get d) m &&& 0x0C = 0 := by
  cases d <;> revert m <;> decide

theorem default_wgmB_reserved (d : Dev) (m : BitVec 6) (h : d.modeOk m = true) :
    wgmB (Config.default.dev.get d) m &&& 0xE0 = 0 ∧
      (d ≠ .d1 → wgmB (Config.default.dev.get d) m &&& 0x10 = 0) := by
  cases d <;> revert m <;> decide

theorem default_csField_reserved (d : Dev) (ps : Prescaler) :
    csField (Config.default.dev.get d) ((psCode Config.default d ps).getD 0) &&& 0xE0 = 0 ∧
      csField (Config.default.dev.get d) ((psCode Config.default d ps).getD 0) &&& 0x10 = 0 := by
  cases d <;> cases ps <;> decide

/-- ACTIVATE writes no reserved bit (R38, R104). -/
theorem activate_reservedBits {s t : State} {ie : Bool} {val : Half} (hcfg : s.cfg = Config.default)
    (hq : s.quiet = true) (hok : s.target.topOk (s.inst.get s.target).wm.top = true)
    (hmode : s.target.modeOk (s.inst.get s.target).wm.mode = true)
    (he : exec (.activate ie val) s = .next t) :
    t.reg (.ctrlA s.target) &&& 0x0C = 0 ∧ t.reg (.ctrlB s.target) &&& 0xE0 = 0 ∧
      t.reg (.imask s.target) &&& 0xF8 = 0 ∧
      (s.target ≠ .d1 → t.reg (.ctrlB s.target) &&& 0x10 = 0) := by
  have hc : s.cfg.wf = true := by rw [hcfg]; decide
  obtain ⟨-, ⟨hg, -⟩ | ⟨-, -, rfl⟩⟩ := exec_next_quiet he hq
  · cases hg
  obtain ⟨hA, hB, hI⟩ := activate_control (ie := ie) (val := val) (.activate ie val) hc hok
  obtain ⟨hB1, hB2⟩ := default_wgmB_reserved s.target _ hmode
  obtain ⟨hC1, hC2⟩ := default_csField_reserved s.target (s.inst.get s.target).ps
  rw [scriptOf, hA, hB, hI, State.dev, clockCode, hcfg]
  exact ⟨busByte_and_eq_zero (default_wgmA_reserved _ _),
    busByte_and_eq_zero ((or_and_of_disjoint hC1).trans hB1),
    busByte_and_eq_zero (default_toieMask_reserved _ ie),
    fun hd => busByte_and_eq_zero ((or_and_of_disjoint hC2).trans (hB2 hd))⟩

theorem actch_reservedBits {s t : State} {ch : Channel} {com : BitVec 2} {ie : Bool} {val : Half}
    (hcfg : s.cfg = Config.default) (hq : s.quiet = true)
    (he : exec (.actch ch com ie val) s = .next t) :
    t.reg (.ctrlA s.target) &&& 0x0C = s.reg (.ctrlA s.target) &&& 0x0C ∧
      t.reg (.imask s.target) &&& 0xF8 = s.reg (.imask s.target) &&& 0xF8 := by
  have hc : s.cfg.wf = true := by rw [hcfg]; decide
  obtain ⟨-, ⟨-, rfl⟩ | ⟨hg, -, rfl⟩⟩ := exec_next_quiet he hq
  · exact ⟨rfl, rfl⟩
  obtain ⟨k, hk⟩ := slot_isSome_of_inRange (ch := ch) hg
  obtain ⟨hA, hI⟩ := actch_control (com := com) (ie := ie) (val := val) (.actch ch com ie val)
    (Config.wf_addrOk hc) hk
  rw [scriptOf, hA, hI, State.dev, hcfg]
  exact ⟨(busByte_and_congr (or_and_of_disjoint (default_comField_reserved _ _ _))).trans
      (congrArg (· &&& 0x0C) (busByte_reg s rfl)),
    (busByte_and_congr (setBit_and_of_disjoint ie (default_ocieMask_reserved _ _))).trans
      (congrArg (· &&& 0xF8) (busByte_reg s rfl))⟩

/-- A command other than ACTIVATE keeps the reserved bits of CTRLA and IMASK: ACTCH by its masks, any
other by not writing the two (R38). -/
theorem reservedBits_of_not_activate {s t : State} {i : Instr} (hcfg : s.cfg = Config.default)
    (hq : s.quiet = true) (hok : s.target.topOk (s.inst.get s.target).wm.top = true)
    (ha : isActivate i = false) (he : exec i s = .next t) :
    t.reg (.ctrlA s.target) &&& 0x0C = s.reg (.ctrlA s.target) &&& 0x0C ∧
      t.reg (.imask s.target) &&& 0xF8 = s.reg (.imask s.target) &&& 0xF8 := by
  by_cases hi : ∃ ch com ie val, i = .actch ch com ie val
  · obtain ⟨ch, com, ie, val, rfl⟩ := hi
    exact actch_reservedBits hcfg hq he
  · have had : s.cfg.addrOk = true := by rw [hcfg]; decide
    have hkeep : ∀ r, r = .ctrlA s.target ∨ r = .imask s.target → t.reg r = s.reg r := fun r hr =>
      exec_reg_of_not_written had hq he (ctrlA_imask_not_written hok ha hi hr)
    rw [hkeep _ (.inl rfl), hkeep _ (.inr rfl)]
    exact ⟨rfl, rfl⟩

/-- Settles O41: ACTIVATE by its end state, every other command by what it writes. -/
theorem reservedBitsAreNeverSet : Obligations.ReservedBitsAreNeverSet := by
  intro s t i hcfg hq hok hmode he
  cases ha : isActivate i with
  | true =>
    cases i with
    | activate ie val => exact activate_reservedBits hcfg hq hok hmode he
    | _ => cases ha
  | false =>
    have had : s.cfg.addrOk = true := by rw [hcfg]; decide
    obtain ⟨hA, hI⟩ := reservedBits_of_not_activate hcfg hq hok ha he
    rw [exec_reg_of_not_written had hq he (ctrlB_not_written hok ha _)]
    exact ⟨hA, rfl, hI, fun _ => rfl⟩

end Sys2Proof.Machine
end

section
/-! The memory family: the moves of the counter and the handler, the transactions of a command, its
read-modify-writes, and the critical section. -/

namespace Sys2Proof.Machine

/-! ### The byte order of a 16-bit register (O50) -/

/-- Settles O50: the low byte is stored first and at the lower address, the high byte above it. -/
theorem sixteenBitRegistersAreLittleEndian : Obligations.SixteenBitRegistersAreLittleEndian := by
  intro s r v h2
  simp only [State.setReg_mem, Memory.writeReg, h2, if_true]
  refine ⟨?_, Memory.read_write_same ..⟩
  rw [Memory.read_write_ne _ _ (Nat.ne_of_lt (Nat.lt_succ_self _)), Memory.read_write_same]
  exact BitVec.setWidth_eq_extractLsb' (by decide)

/-! ### The counter's move (O42) -/

/-- Settles O42: a clocked counter's move is a register write and an entry in the trace. -/
theorem counterMoveSetsCountOnly : Obligations.CounterMoveSetsCountOnly := by
  intro s d v hc
  refine ⟨fun h => if_pos h, fun h => ?_⟩
  have hmove : envMove s (.tick d v) = (s.setReg (.count d) v).log (.counter d (fitReg (.count d) v)) :=
    if_neg h
  rw [hmove]
  exact ⟨State.reg_setReg_same s _ v, fun r hr => State.reg_setReg_ne (Config.wf_addrOk hc) hr v,
    rfl, rfl⟩

/-! ### The handler's moves (O43, O44) -/

/-- The handler has no move while `gie` is 0 (R53). -/
theorem envMove_handler_of_not_gie {s : State} {m : EnvMove} (hm : isHandler m = true)
    (hg : s.gie = false) : envMove s m = s := by
  cases m with
  | busRead a n => simp [envMove, hg]
  | busWrite a n v => simp [envMove, hg]
  | _ => cases hm

/-- With `gie` = 1 the handler writes the register at its address (R53). -/
theorem envMove_busWrite {s : State} {a : Addr} {n : Nat} {r : Reg} (hg : s.gie = true)
    (hr : s.cfg.regAt a n = some r) (v : Half) : envMove s (.busWrite a n v) = handlerWrite s v r := by
  simp [envMove, handlerAccess, hg, hr]

/-- With `gie` = 1 the handler reads the register at its address (R53). -/
theorem envMove_busRead {s : State} {a : Addr} {n : Nat} {r : Reg} (hg : s.gie = true)
    (hr : s.cfg.regAt a n = some r) : envMove s (.busRead a n) = handlerRead s r := by
  simp [envMove, handlerAccess, hg, hr]

/-- Settles O43: at a register's own address and width the handler reaches that register. -/
theorem handlerWritesWholeRegisters : Obligations.HandlerWritesWholeRegisters := by
  intro s r v hc
  have had := Config.wf_addrOk hc
  refine ⟨fun hg => ⟨envMove_handler_of_not_gie rfl hg, envMove_handler_of_not_gie rfl hg⟩,
    fun hg => ?_⟩
  rw [envMove_busWrite hg (regAt_addr had r), envMove_busRead hg (regAt_addr had r)]
  exact ⟨State.reg_setReg_same s r v, fun r' hr' => State.reg_setReg_ne had hr' v, rfl, rfl, rfl⟩

/-- Table M has no register of the width at the address (R42, R48). -/
theorem regAt_eq_none {c : Config} {a : Addr} {n : Nat} (h : ∀ r, c.addr r = a → r.bytes ≠ n) :
    c.regAt a n = none := by
  simpa [Config.regAt] using fun r _ => h r

/-- Settles O44: a refused access only adds its entry to the trace. -/
theorem partialHandlerAccessIsRefused : Obligations.PartialHandlerAccessIsRefused := by
  intro s a n v hg h
  have hr := regAt_eq_none h
  constructor <;> simp [envMove, handlerAccess, hg, hr, State.log]

/-! ### The transactions of a command (O33) -/

theorem seqAccesses_events (s : State) (t : Byte) (op : MicroOp) :
    seqAccesses (op.events s t) = opAccess op := by
  cases op <;> rfl

theorem seqStep_seqAccesses (d : Dev) (op : MicroOp) (l : Bool) (s : State) :
    seqAccesses (seqStep d op l s).trace = seqAccesses s.trace ++ opAccess op := by
  rw [seqStep_trace, seqAccesses, List.filterMap_append]
  exact congrArg _ (seqAccesses_events ..)

/-- A micro-step that is not the last leaves its sequencer as busy as it was (R20). -/
theorem seqStep_busy (d : Dev) (op : MicroOp) (s : State) :
    ((seqStep d op false s).inst.get d).busy = (s.inst.get d).busy := by
  rw [seqStep_inst, PerDev.get_set_same]
  exact engine_busy s (s.inst.get d) op

/-- With no reset to come, a command issues the transactions of its micro-steps in order (R59). -/
theorem runScript_seqAccesses (d : Dev) (ops : List MicroOp) (s : State) (hn : s.noReset = true)
    (hb : (s.inst.get d).busy = true) :
    seqAccesses (runScript d ops s).trace = seqAccesses s.trace ++ ops.flatMap opAccess := by
  induction ops generalizing s with
  | nil => simp [runScript]
  | cons op ops ih =>
    obtain ⟨hi, hn'⟩ := interleave_noReset hn
    have hstep : seqAccesses (seqStep d op ops.isEmpty (interleave s)).trace =
        seqAccesses s.trace ++ opAccess op := by
      rw [seqStep_seqAccesses, interleave_seqAccesses]
    rw [runScript, hi, if_pos hb, List.flatMap_cons, ← List.append_assoc, ← hstep]
    cases ops with
    | nil => simp [runScript]
    | cons op' ops => exact ih _ (seqStep_noReset d op _ hn') (by simpa [seqStep_busy, hi] using hb)

theorem opAccess_ceilingOp (d : Dev) (s : State) (val : Half) :
    opAccess (ceilingOp d (s.inst.get d).wm val) = ceilingAccess s d := by
  simp only [ceilingOp, ceilingAccess]
  cases topReg d (s.inst.get d).wm <;> rfl

theorem zeroScript_accesses (c : DevConfig) (d : Dev) :
    (zeroScript c d).flatMap opAccess = (c.zeroOrder.filterMap (Csr.on d)).map Access.write := by
  rw [zeroScript_eq, List.flatMap_map, List.map_eq_flatMap]
  rfl

/-- The transactions of a command's micro-steps are those of table T (R59). -/
theorem scriptOf_accesses (i : Instr) (d : Dev) (s : State) :
    (scriptOf i d s).flatMap opAccess = tableT s d i := by
  cases i with
  | config wmid psid =>
    simp only [scriptOf, configScript, tableT]
    split <;> rfl
  | activate ie val =>
    simp only [scriptOf, activateScript, tableT, List.flatMap_append, zeroScript_accesses,
      List.flatMap_cons, opAccess_ceilingOp, List.append_assoc]
    rfl
  | actch ch com ie val =>
    simp only [scriptOf, actchScript, tableT]
    cases slot ch <;> rfl
  | actpin ch =>
    simp only [scriptOf, actpinScript, tableT]
    cases slot ch <;> rfl
  | updtop val => simp [scriptOf, updtopScript, tableT, opAccess_ceilingOp]
  | updcmp ch val =>
    simp only [scriptOf, updcmpScript, tableT]
    cases slot ch <;> rfl

/-- A command that its channel guard passes over has no transactions (R112). -/
theorem tableT_of_guardFails {i : Instr} (s : State) (d : Dev) (h : guardFails i = true) :
    tableT s d i = [] := by
  cases i with
  | config wmid psid => cases h
  | activate ie val => cases h
  | updtop val => cases h
  | actch ch com ie val => simp only [tableT, (slot_eq_none_iff ch).mpr h]
  | actpin ch => simp only [tableT, (slot_eq_none_iff ch).mpr h]
  | updcmp ch val => simp only [tableT, (slot_eq_none_iff ch).mpr h]

/-- Settles O33: the environment adds no transaction of the sequencer, and each micro-step its own. -/
theorem transactionsAreTableT : Obligations.TransactionsAreTableT := by
  intro s t i hn he
  obtain ⟨-, ⟨hg, rfl⟩ | ⟨-, -, rfl⟩⟩ := exec_next_cases he
  · rw [tableT_of_guardFails s _ hg, List.append_nil, State.passOver_trace]
  · have h := runScript_seqAccesses s.target (scriptOf i s.target s) (s.accept i) hn (by simp)
    rwa [scriptOf_accesses] at h

/-! ### Read-modify-writes (O46) -/

/-- Every micro-step that reads a register is followed by one that writes that register and no
other (R51). -/
def RmwPaired : List MicroOp → Prop
  | [] => True
  | op :: ops =>
    (∀ r ∈ op.loads, ∃ op', ops.head? = some op' ∧ op'.writes = [r]) ∧ RmwPaired ops

theorem RmwPaired.get {ops : List MicroOp} (h : RmwPaired ops) {k : Nat} {r : Reg}
    (hk : ops[k]? = some (.load r)) : ∃ op, ops[k + 1]? = some op ∧ op.writes = [r] := by
  induction ops generalizing k with
  | nil => cases hk
  | cons op ops ih =>
    obtain ⟨hop, hops⟩ := h
    cases k with
    | zero =>
      obtain rfl : op = .load r := Option.some.inj hk
      simpa [List.head?_eq_getElem?] using hop r List.mem_cons_self
    | succ k => exact ih hops hk

/-- Micro-steps that read nothing may go before. -/
theorem RmwPaired.append {pre ops : List MicroOp} (hpre : ∀ op ∈ pre, op.loads = [])
    (h : RmwPaired ops) : RmwPaired (pre ++ ops) := by
  induction pre with
  | nil => exact h
  | cons op pre ih =>
    refine ⟨?_, ih fun o ho => hpre o (List.mem_cons_of_mem _ ho)⟩
    simp [hpre op List.mem_cons_self]

theorem ceilingOp_loads (d : Dev) (wm : WaveformMode) (val : Half) :
    (ceilingOp d wm val).loads = [] := by
  simp only [ceilingOp]
  split <;> rfl

theorem zeroScript_loads {c : DevConfig} {d : Dev} : ∀ op ∈ zeroScript c d, op.loads = [] := by
  intro op ho
  rw [zeroScript_eq] at ho
  obtain ⟨r, -, rfl⟩ := List.mem_map.mp ho
  rfl

/-- Whatever a command reads, its next micro-step writes (R51). -/
theorem scriptOf_rmwPaired (i : Instr) (d : Dev) (s : State) : RmwPaired (scriptOf i d s) := by
  cases i with
  | config wmid psid =>
    simp only [scriptOf, configScript]
    split <;> simp [RmwPaired, MicroOp.loads]
  | activate ie val =>
    refine RmwPaired.append zeroScript_loads ?_
    simp only [RmwPaired, ceilingOp_loads]
    simp [MicroOp.loads, MicroOp.writes]
  | actch ch com ie val =>
    simp only [scriptOf, actchScript]
    cases slot ch <;> simp [RmwPaired, MicroOp.loads, MicroOp.writes]
  | actpin ch =>
    simp only [scriptOf, actpinScript]
    cases slot ch <;> simp [RmwPaired, MicroOp.loads, MicroOp.writes]
  | updtop val => simp [scriptOf, updtopScript, RmwPaired, ceilingOp_loads]
  | updcmp ch val =>
    simp only [scriptOf, updcmpScript]
    cases slot ch <;> simp [RmwPaired, MicroOp.loads]

/-- The reads of ACTIVATE (R103). -/
theorem activateScript_loads (ie : Bool) (val : Half) (d : Dev) (s : State) :
    (activateScript ie val d s).flatMap MicroOp.loads = [.imask d, .ctrlA d] := by
  have hzero : (zeroScript (s.dev d) d).flatMap MicroOp.loads = [] :=
    List.flatMap_eq_nil_iff.mpr zeroScript_loads
  simp only [activateScript, List.flatMap_append, hzero, List.flatMap_cons, ceilingOp_loads]
  rfl

/-- Settles O46: the reads by each script in turn, the write after a read by `RmwPaired`. -/
theorem readModifyWritesOfR51 : Obligations.ReadModifyWritesOfR51 := by
  intro s ie val ch com i hs
  refine ⟨activateScript_loads ie val s.target s, ?_, ?_,
    fun c k r => (scriptOf_rmwPaired c s.target s).get⟩
  · simp only [scriptOf, actchScript, hs]
    rfl
  · simp only [scriptOf, actpinScript, hs]
    rfl

/-! ### A write inside a read-modify-write (O45) -/

/-- Two machines alike in configuration, in every engine, and in every register outside `R`:
as `AgreeOff`, but whatever their traces, in which a lost write is still seen. -/
structure AlikeOff (R : Set Reg) (s s' : State) : Prop where
  cfg : s'.cfg = s.cfg
  inst : s'.inst = s.inst
  regs : ∀ r, r ∉ R → s'.reg r = s.reg r

theorem AlikeOff.engine {R : Set Reg} {s s' : State} (h : AlikeOff R s s') {op : MicroOp}
    (hop : ∀ r ∈ op.loads, r ∉ R) (x : Inst) : op.engine s' x = op.engine s x := by
  cases op with
  | load r => simp only [MicroOp.engine, h.regs r (hop r List.mem_cons_self)]
  | _ => rfl

/-- A micro-step writes what it stores to (R45). -/
theorem MicroOp.writes_eq (op : MicroOp) (t : Byte) :
    op.writes = ((op.store t).map Prod.fst).toList := by
  cases op <;> rfl

/-- A micro-step that writes a register reads none: it is one bus transaction at most (R20). -/
theorem MicroOp.loads_of_writes {op : MicroOp} {r : Reg} (h : op.writes = [r]) : op.loads = [] := by
  cases op with
  | load r' => cases h
  | _ => rfl

/-- A micro-step that reads no register of `R` makes the machines alike in the register it writes. -/
theorem AlikeOff.seqStep {R : Set Reg} {s s' : State} (h : AlikeOff R s s')
    (had : s.cfg.addrOk = true) {op : MicroOp} (hop : ∀ r ∈ op.loads, r ∉ R) (d : Dev) (l : Bool) :
    AlikeOff (R \ {r | r ∈ op.writes}) (seqStep d op l s) (seqStep d op l s') where
  cfg := by simp [h.cfg]
  inst := by rw [seqStep_inst, seqStep_inst, h.inst, h.engine hop]
  regs := by
    intro r hr
    have hr : r ∉ op.writes → r ∉ R := fun hw hR => hr ⟨hR, hw⟩
    rw [seqStep_reg, seqStep_reg, h.inst]
    rw [op.writes_eq (s.inst.get d).t] at hr
    cases hst : op.store (s.inst.get d).t with
    | none => exact h.regs r (hr (by simp [hst]))
    | some p =>
      have had' : s'.cfg.addrOk = true := by rw [h.cfg, had]
      simp only [State.reg_setReg, had, had']
      split
      · rfl
      · rename_i hne
        exact h.regs r (hr (by simpa [hst] using hne))

/-- An interleaving point makes the moves at the head of the agenda. -/
theorem interleave_of_agenda_cons {s : State} {p : List EnvMove} {ps : List (List EnvMove)}
    (h : s.agenda = p :: ps) : interleave s = p.foldl envMove s.passPoint := by
  simp only [interleave, h, State.passPoint, List.tail_cons]

theorem interleave_of_agenda_nil {s : State} (h : s.agenda = []) : interleave s = s := by
  simp only [interleave, h]

/-- Alike machines stay so while the environment makes no move. -/
theorem AlikeOff.runScript {d : Dev} {ops : List MicroOp} {s s' : State} (h : AlikeOff ∅ s s')
    (had : s.cfg.addrOk = true) (hs : s.agenda = []) (hs' : s'.agenda = []) :
    AlikeOff ∅ (runScript d ops s) (runScript d ops s') := by
  induction ops generalizing s s' with
  | nil => exact h
  | cons op ops ih =>
    rw [Machine.runScript, Machine.runScript, interleave_of_agenda_nil hs,
      interleave_of_agenda_nil hs', h.inst]
    split
    · refine ih ?_ (by simpa using had) (by simpa using hs) (by simpa using hs')
      simpa using h.seqStep had (fun r _ => Set.notMem_empty r) d ops.isEmpty
    · exact h

/-- A write by the handler keeps two machines alike outside `R`, if `R` has the register. -/
theorem AlikeOff.handlerWrite {R : Set Reg} {s s' : State} (h : AlikeOff R s s')
    (had : s'.cfg.addrOk = true) {r : Reg} (hr : r ∈ R) (v : Half) :
    AlikeOff R s (handlerWrite s' v r) where
  cfg := h.cfg
  inst := h.inst
  regs := by
    intro r' hr'
    have hne : r' ≠ r := fun e => hr' (e ▸ hr)
    exact (State.reg_setReg_ne had hne v).trans (h.regs r' hr')

/-- Of two alike machines, the second has a handler that writes `r` right before the micro-step
`op`, which writes `r` without reading it: the command ends alike on both (R51). -/
theorem AlikeOff.lostWrite {d : Dev} {pre ops : List MicroOp} {op : MicroOp} {r : Reg} {v : Half}
    {s s' : State} (h : AlikeOff ∅ s s') (had : s'.cfg.addrOk = true) (hg : s'.gie = true)
    (hb : (s'.inst.get d).busy = true) (hw : op.writes = [r]) (hs : s.agenda = [])
    (hs' : s'.agenda = List.replicate pre.length [] ++ [[.busWrite (s'.cfg.addr r) r.bytes v]]) :
    AlikeOff ∅ (Machine.runScript d (pre ++ op :: ops) s)
      (Machine.runScript d (pre ++ op :: ops) s') := by
  have had' : s.cfg.addrOk = true := by rw [← h.cfg, had]
  induction pre generalizing s s' with
  | nil =>
    have hp : interleave s' = Machine.handlerWrite s'.passPoint v r :=
      (interleave_of_agenda_cons hs').trans
        (envMove_busWrite (s := s'.passPoint) hg (regAt_addr had r) v)
    have hpoint : AlikeOff {r} s s'.passPoint := ⟨h.cfg, h.inst, fun r' _ => h.regs r' id⟩
    have hstep := (hpoint.handlerWrite had (Set.mem_singleton r) v).seqStep had' (op := op)
      (by simp [MicroOp.loads_of_writes hw]) d ops.isEmpty
    have hnone : ({r} : Set Reg) \ {x | x ∈ op.writes} = ∅ := by simp [hw]
    rw [hnone, ← hp] at hstep
    have hb' : ((interleave s').inst.get d).busy = true := by rwa [hp]
    rw [List.nil_append, Machine.runScript, Machine.runScript, interleave_of_agenda_nil hs,
      if_pos hb', if_pos (by rwa [← h.inst])]
    exact hstep.runScript (by simpa using had') (by simpa using hs) (by simp [hs'])
  | cons o pre ih =>
    have hp : interleave s' = s'.passPoint := interleave_of_agenda_cons hs'
    have hpoint : AlikeOff ∅ s s'.passPoint := ⟨h.cfg, h.inst, h.regs⟩
    have hstep := hpoint.seqStep had' (op := o) (fun r _ => Set.notMem_empty r) d false
    rw [Set.empty_sdiff] at hstep
    have hlast : (pre ++ op :: ops).isEmpty = false := by simp
    rw [List.cons_append, Machine.runScript, Machine.runScript, interleave_of_agenda_nil hs, hp,
      hlast, if_pos (by rwa [← h.inst]), if_pos (by rwa [State.passPoint_inst])]
    exact ih hstep (by simpa using had) (by simpa using hg) (by simpa [seqStep_busy] using hb)
      (by simpa using hs) (by simp [hs']) (by simpa using had')

theorem scriptOf_agenda (i : Instr) (d : Dev) (s : State) (a : List (List EnvMove)) :
    scriptOf i d { s with agenda := a } = scriptOf i d s := by
  cases i <;> rfl

theorem hazardOf_agenda (i : Instr) (d : Dev) (s : State) (a : List (List EnvMove)) :
    hazardOf i d { s with agenda := a } = hazardOf i d s := by
  cases i <;> rfl

/-- Settles O45: the micro-step after the read overwrites what the handler wrote. -/
theorem writeInsideRmwIsLost : Obligations.WriteInsideRmwIsLost := by
  intro s i k r v hc hg hp hw hguard hz hk hs
  have hl := legality_eq_none hp hw
  obtain ⟨op, hop, hwr⟩ := (scriptOf_rmwPaired i s.target s).get hk
  obtain ⟨hlt, rfl⟩ := List.getElem?_eq_some_iff.mp hop
  have hsplit : scriptOf i s.target s = (scriptOf i s.target s).take (k + 1) ++
      (scriptOf i s.target s)[k + 1] :: (scriptOf i s.target s).drop (k + 1 + 1) := by
    rw [← List.drop_eq_getElem_cons hlt, List.take_append_drop]
  have halike := AlikeOff.lostWrite (d := s.target) (s := State.accept { s with agenda := [] } i)
    (s' := s.accept i) (pre := (scriptOf i s.target s).take (k + 1))
    (ops := (scriptOf i s.target s).drop (k + 1 + 1)) (v := v)
    ⟨rfl, rfl, fun _ _ => rfl⟩ (Config.wf_addrOk hc) hg (by simp) hwr
    rfl (by rwa [List.length_take_of_le (Nat.le_of_lt hlt)])
  rw [← hsplit] at halike
  have hundisturbed := exec_performed (s := { s with agenda := [] }) hl hguard
    ((hazardOf_agenda ..).trans hz)
  rw [scriptOf_agenda] at hundisturbed
  exact ⟨_, _, exec_performed hl hguard hz, hundisturbed, halike.inst,
    fun r' => halike.regs r' (Set.notMem_empty r')⟩

/-! ### The critical section (O47) -/

@[simp] theorem State.withoutHandler_cfg (s : State) : s.withoutHandler.cfg = s.cfg := rfl
@[simp] theorem State.withoutHandler_inst (s : State) : s.withoutHandler.inst = s.inst := rfl

theorem State.passPoint_withoutHandler (s : State) :
    s.withoutHandler.passPoint = s.passPoint.withoutHandler := by
  simp [State.passPoint, State.withoutHandler, List.map_tail]

theorem handlerAccess_withoutHandler (s : State) (a : Addr) (n : Nat) {access access' : Reg → State}
    (h : ∀ r, access' r = (access r).withoutHandler) :
    handlerAccess s.withoutHandler a n access' = (handlerAccess s a n access).withoutHandler := by
  simp only [handlerAccess, State.withoutHandler_cfg]
  cases s.cfg.regAt a n with
  | none => rfl
  | some r => exact h r

/-- What a move does does not depend on the moves to come. -/
theorem envMove_withoutHandler (s : State) (m : EnvMove) :
    envMove s.withoutHandler m = (envMove s m).withoutHandler := by
  cases m with
  | tick d v =>
    simp only [envMove, counterMove, apply_ite State.withoutHandler]
    rfl
  | busRead a n =>
    rw [envMove, envMove, apply_ite State.withoutHandler,
      ← handlerAccess_withoutHandler s a n (access' := handlerRead s.withoutHandler) fun _ => rfl]
    rfl
  | busWrite a n v =>
    rw [envMove, envMove, apply_ite State.withoutHandler,
      ← handlerAccess_withoutHandler s a n (access' := handlerWrite s.withoutHandler v) fun _ => rfl]
    rfl
  | setGie b => rfl
  | reset => rfl

theorem seqStep_withoutHandler (d : Dev) (op : MicroOp) (l : Bool) (s : State) :
    seqStep d op l s.withoutHandler = (seqStep d op l s).withoutHandler := by
  cases op <;> rfl

theorem State.criticalSection_iff {s : State} :
    s.criticalSection = true ↔
      s.gie = false ∧ ∀ p ∈ s.agenda, ∀ m ∈ p, isTick m = true ∨ isHandler m = true := by
  simp [State.criticalSection]

theorem envMove_gie_of_tick {m : EnvMove} (s : State) (hm : isTick m = true) :
    (envMove s m).gie = s.gie := by
  rcases envMove_cases s m with h | ⟨_, _, h⟩ | ⟨_, _, _, _, h⟩ | ⟨_, rfl, _⟩ | ⟨rfl, _⟩
  · rw [h]
  · rw [h]; rfl
  · rw [h]; rfl
  · cases hm
  · cases hm

/-- While `gie` is 0 the handler's moves among a counter's are none, and `gie` stays 0. -/
theorem foldl_envMove_critical {p : List EnvMove} {s : State} (hg : s.gie = false)
    (hp : ∀ m ∈ p, isTick m = true ∨ isHandler m = true) :
    (p.filter fun m => !isHandler m).foldl envMove s = p.foldl envMove s ∧
      (p.foldl envMove s).gie = false := by
  induction p generalizing s with
  | nil => exact ⟨rfl, hg⟩
  | cons m p ih =>
    have hrest := fun m' h => hp m' (List.mem_cons_of_mem m h)
    cases hm : isHandler m with
    | true =>
      rw [List.filter_cons_of_neg (by simp [hm]), List.foldl_cons, envMove_handler_of_not_gie hm hg]
      exact ih hg hrest
    | false =>
      have ht : isTick m = true := (hp m List.mem_cons_self).resolve_right (by simp [hm])
      rw [List.filter_cons_of_pos (by simp [hm]), List.foldl_cons, List.foldl_cons]
      exact ih ((envMove_gie_of_tick s ht).trans hg) hrest

/-- In the critical section an interleaving point does without the handler's moves what it does with
them, and the section goes on. -/
theorem interleave_critical {s : State} (h : s.criticalSection = true) :
    interleave s.withoutHandler = (interleave s).withoutHandler ∧
      (interleave s).criticalSection = true := by
  obtain ⟨hg, hmoves⟩ := State.criticalSection_iff.mp h
  have hnext : (interleave s).gie = false → (interleave s).criticalSection = true := fun hg' =>
    State.criticalSection_iff.mpr ⟨hg', fun p hp => hmoves p
      (List.mem_of_mem_tail (by rwa [interleave_agenda] at hp))⟩
  cases ha : s.agenda with
  | nil =>
    have ha' : s.withoutHandler.agenda = [] := by simp [State.withoutHandler, ha]
    rw [interleave_of_agenda_nil ha, interleave_of_agenda_nil ha']
    exact ⟨rfl, h⟩
  | cons p ps =>
    obtain ⟨hf, hg'⟩ := foldl_envMove_critical (s := s.passPoint) hg (hmoves p (by simp [ha]))
    have ha' : s.withoutHandler.agenda = (p.filter fun m => !isHandler m) ::
        s.passPoint.withoutHandler.agenda := by simp [State.withoutHandler, ha]
    have hi := interleave_of_agenda_cons ha
    refine ⟨?_, hnext (by rw [hi, hg'])⟩
    rw [hi, ← hf, interleave_of_agenda_cons ha', State.passPoint_withoutHandler]
    exact List.foldl_hom State.withoutHandler fun t m => envMove_withoutHandler t m

theorem runScript_critical {d : Dev} {ops : List MicroOp} {s : State}
    (h : s.criticalSection = true) :
    runScript d ops s.withoutHandler = (runScript d ops s).withoutHandler := by
  induction ops generalizing s with
  | nil => rfl
  | cons op ops ih =>
    obtain ⟨hi, hc⟩ := interleave_critical h
    rw [runScript, runScript, hi, State.withoutHandler_inst, apply_ite State.withoutHandler,
      seqStep_withoutHandler, ih (by simpa [State.criticalSection] using hc)]

/-- A command is refused exactly for what makes it illegal (R81). -/
theorem exec_refused_iff {i : Instr} {s : State} {r : Refusal} :
    exec i s = .refused r ↔ legality s.cfg s.target (s.inst.get s.target).phase i = some r := by
  rw [exec_eq_perform]
  rcases perform_cases i (hazardOf i s.target s) (scriptOf i s.target s) s with
    ⟨_, hl, e⟩ | ⟨hl, _, e⟩ | ⟨_, hl, _, _, e⟩ | ⟨hl, _, _, e⟩ <;> simp [hl, e]

/-- A command in the critical section ends as with the handler's moves taken out (R54). -/
theorem exec_critical {i : Instr} {s t : State} (h : s.criticalSection = true)
    (he : exec i s = .next t) : exec i s.withoutHandler = .next t.withoutHandler := by
  obtain ⟨hl, ⟨hg, rfl⟩ | ⟨hg, hz, rfl⟩⟩ := exec_next_cases he
  · rw [exec_eq_perform]
    exact perform_outOfRange hl hg
  · have hz' : hazardOf i s.target s.withoutHandler = none := by
      rw [State.withoutHandler, hazardOf_agenda, hz]
    have hrun := exec_performed (s := s.withoutHandler) hl hg hz'
    rw [hrun, State.withoutHandler, scriptOf_agenda]
    exact congrArg _ (runScript_critical (s := s.accept i) h)

/-- Settles O47: with `gie` = 0 the handler's moves do nothing, so taking them out changes only the
agenda. -/
theorem criticalSectionExcludesHandler : Obligations.CriticalSectionExcludesHandler := by
  intro s i h
  exact ⟨fun t he => ⟨t.withoutHandler, exec_critical h he, rfl⟩,
    fun r he => exec_refused_iff.mpr (exec_refused_iff (s := s).mp he)⟩

end Sys2Proof.Machine
end

section
/-! The encoding family: decoding and encoding, the words an idle machine takes, the refusals of a
command's operands, and the fields of the control registers. -/

namespace Sys2Proof.Machine

/-! ### Decoding and encoding (O1, O2, O6) -/

theorem Channel.index_ofIndex : ∀ k : BitVec 2, (Channel.ofIndex k).index = k := by decide

theorem covering_row_of_decode {w : Word} {i : Instr} (h : decode w = .ok i) :
    ∃ r ∈ opcodeTable, r.covers w = true ∧ i = r.op.operands w := by
  unfold decode at h
  split at h
  · rename_i r hf
    exact ⟨r, List.mem_of_find?_eq_some hf,
      List.find?_some (p := fun r : OpcodeRow => r.covers w) hf, (Except.ok.inj h).symm⟩
  · cases h

/-- What encoding makes of the operands of any word: the fixed bits are the row's, the others the
word's (R75, R76, R84). -/
theorem encode_operands (w : Word) : ∀ r ∈ opcodeTable,
    encode (r.op.operands w) = r.pattern ||| (w &&& ~~~r.mask) := by
  simp only [opcodeTable, List.forall_mem_cons, Op.operands, encode, fieldWmid, fieldPsid, fieldCh,
    Channel.index_ofIndex, fieldCom, fieldIe, fieldVal]
  refine ⟨?_, ?_, ?_, ?_, ?_, ?_, fun _ h => absurd h List.not_mem_nil⟩
  all_goals
    ext k hk
    interval_cases k <;> simp

/-- A covered word is the pattern where the mask is one, and itself elsewhere (R81 (1)). -/
theorem eq_of_covers {r : OpcodeRow} {w : Word} (h : r.covers w = true) :
    r.pattern ||| (w &&& ~~~r.mask) = w := by
  have hw : w &&& r.mask = r.pattern := beq_iff_eq.mp h
  rw [← hw, ← BitVec.and_or_distrib_left, BitVec.or_not_self, BitVec.and_allOnes]

theorem encode_of_decode {w : Word} {i : Instr} (h : decode w = .ok i) : encode i = w := by
  obtain ⟨r, hr, hcov, rfl⟩ := covering_row_of_decode h
  rw [encode_operands w r hr, eq_of_covers hcov]

/-- Settles O1: an encoded word is covered by its command's row and holds the operands in their
fields; a word that decodes has no bit but these fields and the fixed bits of its row. -/
theorem decodeEncodeRoundTrip : Obligations.DecodeEncodeRoundTrip :=
  ⟨decode_encode, fun _ _ => encode_of_decode⟩

/-- Settles O2: the rows have different opcodes, and every mask covers the opcode field. -/
theorem opcodeRowsDoNotOverlap : Obligations.OpcodeRowsDoNotOverlap :=
  fun _ _ _ => row_unique

/-- Settles O6, by running the decoder. -/
theorem wordsOfV1Decode : Obligations.WordsOfV1Decode :=
  ⟨rfl, rfl, rfl, rfl, rfl, rfl⟩

/-! ### Must-be-zero fields (O3) -/

/-- A row fixes the `n` bits from bit `a` up as zero (R77). -/
def FixesZero (r : OpcodeRow) (a n : Nat) : Prop :=
  r.mask.extractLsb' a n = BitVec.allOnes n ∧ r.pattern.extractLsb' a n = 0

theorem extractLsb'_of_covers {r : OpcodeRow} {w : Word} {a n : Nat} (hz : FixesZero r a n)
    (h : r.covers w = true) : w.extractLsb' a n = 0 := by
  obtain ⟨hm, hp⟩ := hz
  have := extractLsb'_and_eq (beq_iff_eq.mp h) a n
  rwa [hm, hp, BitVec.and_allOnes] at this

theorem getLsbD_of_extractLsb' {w : Word} {a : Nat} (h : w.extractLsb' a 1 = 0) :
    w.getLsbD a = false := by
  simpa using congrArg (fun x : BitVec 1 => x.getLsbD 0) h

/-- The mask of every row covers bits [22:16] (R77). -/
theorem fixesZero_reserved : ∀ r ∈ opcodeTable, FixesZero r 16 7 := by
  unfold FixesZero
  decide

/-- Settles O3: the row of a decoded word fixes these bits as zero. -/
theorem mustBeZeroBitsAreZero : Obligations.MustBeZeroBitsAreZero := by
  intro w i h
  obtain ⟨r, hr, hcov, rfl⟩ := covering_row_of_decode h
  have hz : ∀ {a n}, FixesZero r a n → w.extractLsb' a n = 0 :=
    fun hf => extractLsb'_of_covers hf hcov
  refine ⟨hz (fixesZero_reserved r hr), ?_⟩
  simp only [opcodeTable, List.mem_cons, List.not_mem_nil, or_false] at hr
  rcases hr with rfl | rfl | rfl | rfl | rfl | rfl
  · exact ⟨hz ⟨rfl, rfl⟩, hz ⟨rfl, rfl⟩⟩
  · exact hz ⟨rfl, rfl⟩
  · trivial
  · exact ⟨hz ⟨rfl, rfl⟩, getLsbD_of_extractLsb' (hz ⟨rfl, rfl⟩), hz ⟨rfl, rfl⟩⟩
  · exact ⟨hz ⟨rfl, rfl⟩, getLsbD_of_extractLsb' (hz ⟨rfl, rfl⟩)⟩
  · exact ⟨hz ⟨rfl, rfl⟩, getLsbD_of_extractLsb' (hz ⟨rfl, rfl⟩)⟩

/-! ### Words that decode to no command (O4, O5) -/

theorem decode_of_not_covered {w : Word} (h : ∀ r ∈ opcodeTable, ¬r.covers w = true) :
    decode w = .error (if opcodeAllocated w then .mustBeZero else .reservedOpcode) := by
  unfold decode
  rw [List.find?_eq_none.mpr h]

/-- Every row has an allocated opcode (R76). -/
theorem row_opcode_allocated : ∀ r ∈ opcodeTable,
    1 ≤ (r.pattern.extractLsb' 28 4).toNat ∧ (r.pattern.extractLsb' 28 4).toNat ≤ 6 := by decide

theorem opcodeAllocated_of_row {r : OpcodeRow} {w : Word} (hr : r ∈ opcodeTable)
    (h : fieldOp w = r.pattern.extractLsb' 28 4) : opcodeAllocated w = true := by
  unfold opcodeAllocated
  rw [h]
  exact decide_eq_true (row_opcode_allocated r hr)

theorem decode_of_not_allocated {w : Word} (h : opcodeAllocated w = false) :
    decode w = .error .reservedOpcode := by
  rw [decode_of_not_covered fun r hr hcov => ?_, h]
  · rfl
  · exact Bool.false_ne_true (h.symm.trans (opcodeAllocated_of_row hr (fieldOp_of_covers hr hcov)))

/-- Only the row with the word's opcode could cover the word, and it does not (R76, R77). -/
theorem decode_of_nonzero_field {r : OpcodeRow} {w : Word} {a n : Nat} (hr : r ∈ opcodeTable)
    (hop : w.extractLsb' 28 4 = r.pattern.extractLsb' 28 4) (hz : FixesZero r a n)
    (hne : w.extractLsb' a n ≠ 0) : decode w = .error .mustBeZero := by
  rw [decode_of_not_covered fun r' hr' hcov => ?_, opcodeAllocated_of_row hr hop]
  · rfl
  · have : r' = r := row_eq_of_opcode r' hr' r hr ((fieldOp_of_covers hr' hcov).symm.trans hop)
    exact hne (extractLsb'_of_covers hz (this ▸ hcov))

/-- An idle machine takes the next word of the port (R81, R82). -/
theorem step_of_port {s : State} {d : Dev} {w : Word} {rest : List (Dev × Word)}
    (hi : s.allIdle = true) (hp : s.port = (d, w) :: rest) : step s = takeWord d w rest s := by
  simp only [step, stepMachine, busyDev_of_idle (State.allIdle_iff.mp hi), hp]

theorem step_of_decode_error {s : State} {d : Dev} {w : Word} {rest : List (Dev × Word)}
    {e : DecodeError} (hi : s.allIdle = true) (hp : s.port = (d, w) :: rest)
    (h : decode w = .error e) : step s = .refused (refusalOf e) := by
  rw [step_of_port hi hp, takeWord, h]

/-- Settles O4: no row has such an opcode. -/
theorem reservedOpcodesAreRefused : Obligations.ReservedOpcodesAreRefused := by
  intro s d w rest hi hp hop
  refine step_of_decode_error hi hp (decode_of_not_allocated (decide_eq_false ?_))
  rintro ⟨h1, h6⟩
  rcases hop with h0 | h7
  · rw [fieldOp, h0] at h1
    exact absurd h1 (by decide)
  · exact absurd (h7.trans h6) (by decide)

/-- Settles O5: the row with the word's opcode fixes the field as zero, and no other row has that
opcode. -/
theorem mustBeZeroWordsAreRefused : Obligations.MustBeZeroWordsAreRefused := by
  intro s d w rest hi hp hw
  refine step_of_decode_error hi hp (e := .mustBeZero) ?_
  have key : ∀ (k : Fin 6) {a n : Nat},
      w.extractLsb' 28 4 = opcodeTable[k].pattern.extractLsb' 28 4 → FixesZero opcodeTable[k] a n →
        w.extractLsb' a n ≠ 0 → decode w = .error .mustBeZero :=
    fun k _ _ => decode_of_nonzero_field (List.getElem_mem k.isLt)
  rcases hw with ⟨hop, hf | hf⟩ | ⟨hop, hf | hf⟩ | ⟨hop, hf⟩ | ⟨hop, hf | hf⟩ | ⟨hop, hf⟩ |
    ⟨hop, hf⟩
  · exact key 0 hop ⟨rfl, rfl⟩ hf
  · exact key 0 hop ⟨rfl, rfl⟩ hf
  · exact key 1 hop ⟨rfl, rfl⟩ hf
  · exact key 1 hop ⟨rfl, rfl⟩ hf
  · exact key 2 hop ⟨rfl, rfl⟩ hf
  · exact key 3 hop ⟨rfl, rfl⟩ hf
  · exact key 3 hop ⟨rfl, rfl⟩ hf
  · exact key 4 hop ⟨rfl, rfl⟩ hf
  · exact key 5 hop ⟨rfl, rfl⟩ hf

/-! ### Words that decode to a command (O7, O8, O11) -/

theorem step_of_decode {s : State} {d : Dev} {w : Word} {rest : List (Dev × Word)} {i : Instr}
    (hi : s.allIdle = true) (hp : s.port = (d, w) :: rest) (h : decode w = .ok i) :
    step s = exec i (s.present d rest) := by
  rw [step_of_port hi hp, takeWord, h]

/-- Settles O7: an idle machine takes the word and decodes it. -/
theorem stepRunsDecodedWord : Obligations.StepRunsDecodedWord :=
  fun _ _ _ _ _ => step_of_decode

/-- Settles O8: presenting the placed word gives back the state before it was placed. -/
theorem fetchWordRunsIt : Obligations.FetchWordRunsIt :=
  fun s n w _ hi h => step_of_decode (s := s.withFetchWord n w) hi rfl h

/-- A command that the channel guard turns away has no micro-step (R62, R112). -/
theorem scriptOf_of_guardFails {i : Instr} (d : Dev) (s : State) (h : guardFails i = true) :
    scriptOf i d s = [] := by
  cases i with
  | config wmid psid => cases h
  | activate ie val => cases h
  | actch ch com ie val => simp only [scriptOf, actchScript, (slot_eq_none_iff ch).mpr h]
  | actpin ch => simp only [scriptOf, actpinScript, (slot_eq_none_iff ch).mpr h]
  | updtop val => cases h
  | updcmp ch val => simp only [scriptOf, updcmpScript, (slot_eq_none_iff ch).mpr h]

/-- Settles O11: of the latched command no micro-step is left from `seq` on. -/
theorem latchedCommandWithNoMicroStepEnds : Obligations.LatchedCommandWithNoMicroStepEnds := by
  intro s d i hb hcmd hz hend
  have hlen : (scriptOf i d s).length ≤ (s.inst.get d).seq.toNat := by
    rcases hend with hg | hlen
    · simp [scriptOf_of_guardFails d s hg]
    · exact hlen
  rw [step_of_busyDev (busyDev_unique hb)]
  simp only [resume, latchedHazard_of_encode hcmd, hz, latchedScript_of_encode hcmd,
    if_neg (Nat.not_lt.mpr hlen)]
  rfl

/-! ### Operands that are refused (O14, O16) -/

theorem legality_of_configured {c : Config} {d : Dev} {p : Phase} {i : Instr}
    (h : p ≠ .unconfigured ∨ isConfig i = true) : legality c d p i = operandRefusal c d i := by
  refine if_neg ?_
  rintro ⟨hp, hc⟩
  rcases h with h | h
  · exact h hp
  · exact Bool.false_ne_true (hc.symm.trans h)

/-- All commands with a VAL are refused for it alike (R78). -/
theorem operandRefusal_of_val {i : Instr} {val : Half} (c : Config) (d : Dev)
    (h : valOf i = some val) :
    operandRefusal c d i = if fitsRes d val then none else some .valTooWide := by
  cases i <;> cases h <;> rfl

theorem fitsRes_eq_false_iff (d : Dev) (v : Half) :
    fitsRes d v = false ↔ d ≠ .d1 ∧ v.extractLsb' 8 8 ≠ 0 := by
  cases d <;> simp [fitsRes, Dev.res]

/-- Settles O14: once the target is configured, the width of VAL is the only check of such a command. -/
theorem wideValuesAreRefused : Obligations.WideValuesAreRefused := by
  intro s i val hi hp
  have hval : valOf i = some val := by
    rcases hi with ⟨_, rfl⟩ | ⟨_, _, _, rfl⟩ | rfl | ⟨_, rfl⟩ <;> rfl
  rw [exec_refused_iff, legality_of_configured (.inl hp), operandRefusal_of_val _ _ hval,
    ← fitsRes_eq_false_iff]
  cases fitsRes s.target val <;> simp

/-- Settles O16, by the order of the checks of CONFIG's selectors. -/
theorem unknownSelectorsAreRefused : Obligations.UnknownSelectorsAreRefused := by
  intro s wmid psid hcat
  rw [exec_refused_iff, exec_refused_iff, legality_of_configured (.inr rfl), operandRefusal, hcat]
  refine ⟨fun hwm => by simp [hwm], fun hwm hps => ?_⟩
  obtain ⟨wm, hwm⟩ := Option.ne_none_iff_exists'.mp hwm
  simp [hwm, hps]

/-! ### Fields of the control registers (O26, O52, O53) -/

/-- The codes of the four modes, in the order of `ComMode`. -/
def comCodes (c : DevConfig) : List (BitVec 2) :=
  [c.comCode.disconnected, c.comCode.toggle, c.comCode.clear, c.comCode.set]

theorem comCodes_nodup {c : DevConfig} (h : c.codesOk = true) : (comCodes c).Nodup := by
  simp only [DevConfig.codesOk, Bool.and_eq_true, decide_eq_true_eq] at h
  exact h.1

theorem comName_get {c : DevConfig} (h : (comCodes c).Nodup) (m : ComMode) :
    comName c (c.comCode.get m) = m := by
  simp only [comCodes, List.nodup_cons, List.mem_cons, List.not_mem_nil, not_or, or_false] at h
  obtain ⟨⟨h01, h02, h03⟩, ⟨h12, h13⟩, h23, -⟩ := h
  cases m <;> simp [comName, PerMode.get, *]

/-- Four different 2-bit codes are all there are. -/
theorem mem_comCodes {c : DevConfig} (h : (comCodes c).Nodup) (code : BitVec 2) :
    code ∈ comCodes c := by
  by_contra hn
  have hlen : 5 ≤ Fintype.card (BitVec 2) := (List.nodup_cons.mpr ⟨hn, h⟩).length_le_card
  exact absurd hlen (by decide)

theorem exists_mode_of_mem {c : DevConfig} {code : BitVec 2} (h : code ∈ comCodes c) :
    ∃ m, c.comCode.get m = code := by
  simp only [comCodes, List.mem_cons, List.not_mem_nil, or_false] at h
  rcases h with rfl | rfl | rfl | rfl
  · exact ⟨.disconnected, rfl⟩
  · exact ⟨.toggle, rfl⟩
  · exact ⟨.clear, rfl⟩
  · exact ⟨.set, rfl⟩

/-- Settles O26: COM_CODE is injective, and so takes all four codes. -/
theorem everyModeCodeNamesOneMode : Obligations.EveryModeCodeNamesOneMode := by
  intro c d hc
  obtain ⟨-, -, hcodes, -⟩ := Config.wf_dev hc d
  have hnd := comCodes_nodup hcodes
  refine ⟨comName_get hnd, fun code => ?_⟩
  obtain ⟨m, rfl⟩ := exists_mode_of_mem (mem_comCodes hnd code)
  rw [comName_get hnd]

theorem oneShiftLeft_getLsbD (k : Nat) {j : Nat} (hj : j < 8) :
    (1#8 <<< k).getLsbD j = decide (j = k) := by
  rw [← BitVec.twoPow_eq, BitVec.getLsbD_twoPow, Bool.eq_iff_iff]
  simp only [Bool.and_eq_true, decide_eq_true_eq]
  omega

theorem setBit_getLsbD (v : Byte) (k : Nat) {j : Nat} (f : Bool) (hj : j < 8) :
    (setBit v (1#8 <<< k) f).getLsbD j = if j = k then f else v.getLsbD j := by
  have hflag : (if f then 1#8 <<< k else 0).getLsbD j = (f && decide (j = k)) := by
    cases f
    · simp
    · simp [oneShiftLeft_getLsbD k hj]
  rw [setBit, BitVec.getLsbD_or, hflag, BitVec.getLsbD_and, BitVec.getLsbD_not,
    oneShiftLeft_getLsbD k hj]
  by_cases hjk : j = k
  · simp [hjk]
  · simp [hjk, hj]

/-- Settles O52: the masks by their definitions, the bits of `setBit` by those of its mask. -/
theorem setBitSetsOneBit : Obligations.SetBitSetsOneBit :=
  ⟨fun _ _ => ⟨rfl, rfl⟩, fun d => by cases d <;> decide, fun _ _ _ => rfl,
    fun v k _ f _ hj => setBit_getLsbD v k f hj⟩

/-- A pattern that meets R94 (b) has no bit from bit 4 up. -/
theorem lt_four_of_modeOk (d : Dev) : ∀ m : BitVec 6, d.modeOk m = true →
    ∀ j : Fin 6, m.getLsbD j = true → (j : Nat) < 4 := by
  cases d <;> decide

/-- A one of `wgmB` is a bit of the pattern from bit 2 up, shifted to WGM_B_SHIFT (R69). -/
theorem bit_of_wgmB {c : DevConfig} {m : BitVec 6} {k : Nat} (h : (wgmB c m).getLsbD k = true) :
    c.wgmBShift ≤ k ∧ m.getLsbD (2 + (k - c.wgmBShift)) = true := by
  simp only [wgmB, BitVec.getLsbD_shiftLeft, BitVec.getLsbD_setWidth, BitVec.getLsbD_extractLsb',
    Bool.and_eq_true, Bool.not_eq_true', decide_eq_true_eq, decide_eq_false_iff_not] at h
  obtain ⟨⟨-, hle⟩, -, -, hbit⟩ := h
  exact ⟨Nat.le_of_not_lt hle, hbit⟩

/-- Settles O53: a catalog pattern has two bits for CTRLB, and the field they are shifted to is apart
from the clock-select field. -/
theorem modeBitsStayOutOfClockField : Obligations.ModeBitsStayOutOfClockField := by
  intro c d w k hc hw hk
  obtain ⟨hcat, hbits, -, -⟩ := Config.wf_dev hc d
  obtain ⟨hmode, -⟩ := catalog_row_ok hcat hw
  obtain ⟨hle, hbit⟩ := bit_of_wgmB hk
  have hlt : 2 + (k - (c.dev.get d).wgmBShift) < 4 :=
    lt_four_of_modeOk d w.mode hmode ⟨_, BitVec.lt_of_getLsbD hbit⟩ hbit
  simp only [DevConfig.bitsOk, fieldsApart, Bool.and_eq_true, Bool.or_eq_true,
    decide_eq_true_eq] at hbits
  omega

end Sys2Proof.Machine
end

section
/-! The waveform-mode family: equality of modes, the default selectors that name nothing, and a
ceiling that is channel A's compare register. -/

namespace Sys2Proof.Machine

/-! ### Equality of waveform modes (O51) -/

@[simp] theorem wmEq_iff (a b : WaveformMode) : a.wmEq b = true ↔ a.mode = b.mode :=
  beq_iff_eq

/-- Settles O51: the equality compares the patterns alone. -/
theorem waveformEqualityIsByPattern : Obligations.WaveformEqualityIsByPattern :=
  ⟨wmEq_iff, fun _ _ _ => (wmEq_iff _ _).mpr rfl⟩

/-! ### Selectors that name nothing (O17) -/

/-- A WMID names nothing exactly when it is no selector of the instance's catalog (R79, R92). -/
theorem wmDecode_eq_none_iff {c : Config} {d : Dev} {w : BitVec 6} :
    wmDecode c d w = none ↔ w ∉ (c.dev.get d).catalog.map CatalogRow.wmid := by
  rw [← Option.not_isSome_iff_eq_none, wmDecode_isSome_iff, wmidWellFormed, List.contains_iff_mem]

/-- A PSID names nothing exactly when the prescaler it stands for, if there is one, is not in the
instance's enumeration (R67, R79). -/
theorem psDecode_eq_none_iff {c : Config} {d : Dev} {p : BitVec 4} :
    psDecode c d p = none ↔ ∀ ps ∈ prescalerOfPsid p, ps ∉ (c.dev.get d).psCode.map Prod.fst := by
  rw [← Option.not_isSome_iff_eq_none, psDecode_isSome_iff, psidWellFormed]
  cases prescalerOfPsid p with
  | none => simp
  | some ps => simp

/-- The selectors missing from tables W0 and W2 (R95, R97). -/
theorem not_mem_catalog8_iff : ∀ w : BitVec 6,
    w ∉ catalog8.map CatalogRow.wmid ↔ w = 4 ∨ w = 6 ∨ 8 ≤ w.toNat := by decide

/-- The selectors missing from table W1 (R96). -/
theorem not_mem_catalog16_iff : ∀ w : BitVec 6,
    w ∉ catalog16.map CatalogRow.wmid ↔ w = 13 ∨ 16 ≤ w.toNat := by decide

/-- Of table PS, D0 and D1 lack Div32, PSID 3, and Div128, PSID 5 (R66, R67). -/
theorem not_mem_psCodeExternal_iff : ∀ p : BitVec 4,
    (∀ ps ∈ prescalerOfPsid p, ps ∉ psCodeExternal.map Prod.fst) ↔
      p = 3 ∨ p = 5 ∨ 10 ≤ p.toNat := by decide

/-- Of table PS, D2 lacks the two external clocks, PSID 8 and 9 (R66, R67). -/
theorem not_mem_psCodeInternal_iff : ∀ p : BitVec 4,
    (∀ ps ∈ prescalerOfPsid p, ps ∉ psCodeInternal.map Prod.fst) ↔ 8 ≤ p.toNat := by decide

/-- Settles O17: D0 and D2 share a catalog, D0 and D1 an enumeration. -/
theorem defaultSelectorsThatNameNothing : Obligations.DefaultSelectorsThatNameNothing := by
  constructor
  · intro w
    have h8 := not_mem_catalog8_iff w
    have h16 := not_mem_catalog16_iff w
    exact ⟨wmDecode_eq_none_iff.trans h8, wmDecode_eq_none_iff.trans h16,
      wmDecode_eq_none_iff.trans h8⟩
  · intro p
    have hExt := not_mem_psCodeExternal_iff p
    have hInt := not_mem_psCodeInternal_iff p
    exact ⟨psDecode_eq_none_iff.trans hExt, psDecode_eq_none_iff.trans hExt,
      psDecode_eq_none_iff.trans hInt⟩

/-! ### A ceiling in COMPARE[0] (O31) -/

theorem topReg_of_compareA {w : WaveformMode} (d : Dev) (h : w.top = .reg (.compare 0)) :
    topReg d w = some (.compare d 0) := by
  simp only [topReg, h, Csr.on]

/-- In a mode whose ceiling is COMPARE[0], UPDTOP is that register's write (R100, R114). -/
theorem scriptOf_updtop_of_compareA {s : State} {d : Dev} (x : Half)
    (h : (s.inst.get d).wm.top = .reg (.compare 0)) :
    scriptOf (.updtop x) d s = [.write (.compare d 0) x] := by
  simp only [scriptOf, updtopScript, ceilingOp, topReg_of_compareA d h]

/-- UPDCMP of channel A is the write of COMPARE[0] (R109). -/
theorem scriptOf_updcmp_a (x : Half) (d : Dev) (s : State) :
    scriptOf (.updcmp .a x) d s = [.write (.compare d 0) x] := rfl

/-- A command whose only micro-step is a register write ends with that write made and traced,
whatever word it was latched from. -/
theorem exec_single_write {s t : State} {i : Instr} {r : Reg} {v : Half} (hq : s.quiet = true)
    (hg : guardFails i = false) (hs : scriptOf i s.target s = [.write r v])
    (he : exec i s = .next t) :
    t.mem = Memory.writeReg s.cfg s.mem r v ∧ t.trace = s.trace ++ [.seqWrite r (fitReg r v)] := by
  obtain ⟨-, ⟨hg', -⟩ | ⟨-, -, rfl⟩⟩ := exec_next_quiet he hq
  · exact absurd (hg.symm.trans hg') Bool.false_ne_true
  · rw [hs, quietRun, quietRun, seqStep_mem, seqStep_trace]
    exact ⟨rfl, rfl⟩

/-- Settles O31: the two commands have the same only micro-step, the write of COMPARE[0]. -/
theorem ceilingInCompareAIsShared : Obligations.CeilingInCompareAIsShared := by
  intro s t t' x htop hq he he'
  obtain ⟨hmem, htrace⟩ := exec_single_write hq rfl (scriptOf_updtop_of_compareA x htop) he
  obtain ⟨hmem', htrace'⟩ := exec_single_write hq rfl (scriptOf_updcmp_a x s.target s) he'
  exact ⟨hmem.trans hmem'.symm, htrace.trans htrace'.symm⟩

end Sys2Proof.Machine
end

section
/-! The set-up family: CONFIG, the end state of ACTIVATE with and without counters that tick, a
second ACTIVATE, and a TOP value that a fixed ceiling discards. -/

namespace Sys2Proof.Machine

/-! ### CONFIG (O18) -/

/-- Settles O18: the only micro-step of CONFIG is the capture. -/
theorem configCapturesAndTouchesNoHardware : Obligations.ConfigCapturesAndTouchesNoHardware := by
  intro s wmid psid wm ps hq hcat hwm hps
  have hw : (Instr.config wmid psid).wf s.cfg s.target = true := by
    simp [Instr.wf, hcat, ← wmDecode_isSome_iff, ← psDecode_isSome_iff, hwm, hps]
  have hscript : scriptOf (.config wmid psid) s.target s = [.capture wm ps] := by
    simp only [scriptOf, configScript, hwm, hps]
  rw [exec_quiet (legality_eq_none (.inr rfl) hw) rfl rfl hq, hscript]
  simp [quietRun, seqStep, microStep, State.accept, State.passPoint, State.setInst, Inst.captured,
    Inst.advanced]

/-! ### The engine at the end of a command -/

/-- What a micro-step records in the engine: everything it changes but the temporary (R12). -/
def MicroOp.record (x : Inst) : MicroOp → Inst
  | .capture wm ps => x.captured wm ps
  | .start => x.started
  | .connect i m => x.connected i m
  | _ => x

/-- An instance with its sequencer at rest after a command that left `t` in the temporary. -/
def Inst.atRest (x : Inst) (t : Byte) : Inst := { x with busy := false, seq := 0, t := t }

theorem MicroOp.record_atRest (op : MicroOp) (x : Inst) (t : Byte) :
    op.record (x.atRest t) = (op.record x).atRest t := by
  cases op <;> rfl

theorem foldl_record_atRest (ops : List MicroOp) (x : Inst) (t : Byte) :
    ops.foldl MicroOp.record (x.atRest t) = (ops.foldl MicroOp.record x).atRest t :=
  List.foldl_hom (Inst.atRest · t) fun x op => op.record_atRest x t

theorem seqStep_atRest (d : Dev) (op : MicroOp) (l : Bool) (s : State) (t : Byte) :
    ((seqStep d op l s).inst.get d).atRest t = (op.record (s.inst.get d)).atRest t := by
  rw [seqStep_inst, PerDev.get_set_same]
  cases op <;> cases l <;> rfl

/-- With no move to come, a command leaves its instance at rest, with what its micro-steps recorded. -/
theorem quietRun_inst (d : Dev) (op : MicroOp) (ops : List MicroOp) (s : State) :
    (quietRun d (op :: ops) s).inst.get d =
      ((op :: ops).foldl MicroOp.record (s.inst.get d)).atRest
        ((quietRun d (op :: ops) s).inst.get d).t := by
  induction ops generalizing op s with
  | nil =>
    have hlast : ((seqStep d op true s.passPoint).inst.get d).atRest
        ((seqStep d op true s.passPoint).inst.get d).t =
          (seqStep d op true s.passPoint).inst.get d := by
      rw [seqStep_inst, PerDev.get_set_same]
      rfl
    exact hlast.symm.trans (seqStep_atRest d op true s.passPoint _)
  | cons op' ops ih =>
    have hstep := seqStep_atRest d op false s.passPoint
    rw [quietRun]
    refine (ih op' _).trans ?_
    rw [← foldl_record_atRest, List.isEmpty_cons, hstep, foldl_record_atRest]
    rfl

/-! ### The end of ACTIVATE (O19) -/

/-- R103, R104: the end state of an ACTIVATE that ran with no move to come. -/
structure ActivateEnd (s : State) (ie : Bool) (val : Half) (t : State) : Prop where
  ctrlA : t.reg (.ctrlA s.target) =
    busByte (wgmA (s.dev s.target) (s.inst.get s.target).wm.mode)
  ctrlB : t.reg (.ctrlB s.target) =
    busByte (wgmB (s.dev s.target) (s.inst.get s.target).wm.mode |||
      csField (s.dev s.target) (clockCode s.target s))
  imask : t.reg (.imask s.target) = busByte (if ie then toieMask (s.dev s.target) else 0)
  count : t.reg (.count s.target) = 0
  ceiling : ∀ r, topReg s.target (s.inst.get s.target).wm = some r → t.reg r = val
  engine : t.inst.get s.target =
    { s.inst.get s.target with
      phase := .running, chActive := ⟨false, false⟩, busy := false
      cmd := encode (.activate ie val), seq := 0, t := 0 }
  frame : Untouched s t ([.ctrlA s.target, .ctrlB s.target, .count s.target, .imask s.target] ++
    (topReg s.target (s.inst.get s.target).wm).toList)

/-- What ACTIVATE leaves in COUNT, in a ceiling register and in the temporary; `activate_control` has
the other registers. -/
theorem activate_count_ceiling_temp {s : State} {ie : Bool} {val : Half} (i : Instr)
    (hc : s.cfg.wf = true) (hok : s.target.topOk (s.inst.get s.target).wm.top = true) :
    let t := quietRun s.target (activateScript ie val s.target s) (s.accept i)
    t.reg (.count s.target) = 0 ∧
    (∀ r, topReg s.target (s.inst.get s.target).wm = some r → t.reg r = fitReg r val) ∧
    (t.inst.get s.target).t = 0 := by
  obtain ⟨-, -, -, hzero⟩ := Config.wf_dev hc s.target
  have hz := mem_zeroOrder (c := s.dev s.target) hzero s.target
  have hview := quietRun_view s.target (activateScript ie val s.target s) (s := s.accept i)
    (Config.wf_addrOk hc)
  have htemp := congrArg Prod.fst hview
  have hregs := congrFun (congrArg Prod.snd hview)
  simp only [State.view] at htemp hregs
  simp only [htemp, hregs]
  simp only [activateScript, zeroScript_eq, List.foldl_append, foldl_effect_zeroWrites, List.foldl_cons,
    List.foldl_nil, ceilingOp]
  cases ht : topReg s.target (s.inst.get s.target).wm with
  | none => simp [MicroOp.effect, MicroOp.temp, MicroOp.store, hz]
  | some r =>
    obtain ⟨hA, hB, hC, hI, -⟩ := topReg_ne hok ht
    simp [MicroOp.effect, MicroOp.temp, MicroOp.store, hz, hA, hB, hC.symm, hA.symm]

/-- ACTIVATE records the start (R103, seq 10). -/
theorem activateScript_record (ie : Bool) (val : Half) (d : Dev) (s : State) (x : Inst) :
    (activateScript ie val d s).foldl MicroOp.record x = x.started := by
  have hceil : (ceilingOp d (s.inst.get d).wm val).record x = x := by
    simp only [ceilingOp]
    split <;> rfl
  have hzero : (zeroScript (s.dev d) d).foldl MicroOp.record x = x := by
    rw [zeroScript_eq, List.foldl_map]
    exact List.foldl_fixed _
  rw [activateScript, List.foldl_append, hzero]
  exact congrArg Inst.started hceil

theorem ceilingOp_writes (d : Dev) (wm : WaveformMode) (val : Half) :
    (ceilingOp d wm val).writes = (topReg d wm).toList := by
  simp only [ceilingOp]
  split <;> simp [MicroOp.writes, *]

/-- What ACTIVATE writes: the zero set and a ceiling register (R103). -/
theorem activateScript_writes {ie : Bool} {val : Half} {d : Dev} {s : State}
    (hz : (s.dev d).zeroOrderOk = true) {r : Reg}
    (h : r ∈ (activateScript ie val d s).flatMap MicroOp.writes) :
    r ∈ [.ctrlA d, .ctrlB d, .count d, .imask d] ++ (topReg d (s.inst.get d).wm).toList := by
  have hzero : (zeroScript (s.dev d) d).flatMap MicroOp.writes =
      (s.dev d).zeroOrder.filterMap (Csr.on d) := by
    rw [zeroScript_eq, List.flatMap_map]
    exact List.flatMap_singleton' _
  have hrest : (activateScript ie val d s).flatMap MicroOp.writes =
      (s.dev d).zeroOrder.filterMap (Csr.on d) ++ ([.imask d] ++
        ((topReg d (s.inst.get d).wm).toList ++ [.ctrlA d, .ctrlB d])) := by
    rw [activateScript, List.flatMap_append, hzero, ← ceilingOp_writes d _ val]
    rfl
  rw [hrest] at h
  simp only [List.mem_append, mem_zeroOrder hz d, List.mem_cons, List.not_mem_nil, or_false] at h ⊢
  tauto

theorem activateHazard_eq_none {d : Dev} {s : State} {code : Byte}
    (hps : psCode s.cfg d (s.inst.get d).ps = some code)
    (hok : d.topOk (s.inst.get d).wm.top = true) : activateHazard d s = none := by
  simp [activateHazard, hps, ceilingHazard_eq_none hok]

theorem clockCode_eq {d : Dev} {s : State} {code : Byte}
    (hps : psCode s.cfg d (s.inst.get d).ps = some code) : clockCode d s = code := by
  simp [clockCode, hps]

/-- A legal ACTIVATE is performed, whatever the environment does. -/
theorem exec_activate {s : State} {ie : Bool} {val : Half} {code : Byte}
    (hp : (s.inst.get s.target).phase ≠ .unconfigured)
    (hw : (Instr.activate ie val).wf s.cfg s.target = true)
    (hps : psCode s.cfg s.target (s.inst.get s.target).ps = some code)
    (hok : s.target.topOk (s.inst.get s.target).wm.top = true) :
    exec (.activate ie val) s =
      .next (runScript s.target (activateScript ie val s.target s) (s.accept (.activate ie val))) :=
  exec_performed (legality_eq_none (.inl hp) hw) rfl (activateHazard_eq_none hps hok)

theorem exec_activateEnd {s t : State} {ie : Bool} {val : Half} (hc : s.cfg.wf = true)
    (hq : s.quiet = true) (hok : s.target.topOk (s.inst.get s.target).wm.top = true)
    (he : exec (.activate ie val) s = .next t) : ActivateEnd s ie val t := by
  obtain ⟨hl, ⟨hg, -⟩ | ⟨-, -, rfl⟩⟩ := exec_next_quiet he hq
  · cases hg
  obtain ⟨-, hw⟩ := (legality_eq_none_iff _ _ _ _).mp hl
  have hval : val.toNat < 2 ^ s.target.res := of_decide_eq_true hw
  obtain ⟨-, -, -, hzero⟩ := Config.wf_dev hc s.target
  obtain ⟨hA, hB, hI⟩ := activate_control (ie := ie) (val := val) (.activate ie val) hc hok
  obtain ⟨hcount, hceil, htemp⟩ :=
    activate_count_ceiling_temp (ie := ie) (val := val) (.activate ie val) hc hok
  refine ⟨hA, hB, hI, hcount, fun r hr => ?_, ?_,
    untouched_quietRun fun r => activateScript_writes hzero⟩
  · exact (hceil r hr).trans (fitReg_of_res (topReg_bytes hok hr) hval)
  · obtain ⟨op, ops, hs⟩ := List.exists_cons_of_ne_nil (scriptOf_ne_nil hl rfl)
    have hinst := quietRun_inst s.target op ops (s.accept (.activate ie val))
    rw [← hs] at hinst
    rw [scriptOf] at hinst ⊢
    rw [hinst, htemp, activateScript_record, State.accept_inst, PerDev.get_set_same]
    rfl

/-- Settles O19: ACTIVATE is performed, and what it writes last in each register stands at its end. -/
theorem activateEndState : Obligations.ActivateEndState := by
  intro s ie val code hc hq hp hw hps hok
  have he := exec_activate hp hw hps hok
  obtain ⟨hA, hB, hI, hcount, hceil, hinst, hframe⟩ := exec_activateEnd hc hq hok he
  rw [clockCode_eq hps] at hB
  exact ⟨_, he, hA, hB, hI, hcount, hceil, hinst, hframe⟩

/-! ### ACTIVATE with no clock (O20) -/

/-- The mode bits of CTRLB are outside the clock-select field (R69, R94 (b)). -/
theorem csOf_wgmB {c : DevConfig} {d : Dev} {m : BitVec 6} (hbits : c.bitsOk = true)
    (hmode : d.modeOk m = true) : csOf c (busByte (wgmB c m)) = 0 := by
  simp only [DevConfig.bitsOk, fieldsApart, Bool.and_eq_true, Bool.or_eq_true,
    decide_eq_true_eq] at hbits
  have hclear : (busByte (wgmB c m)).extractLsb' c.csLsb c.csWidth = 0 := by
    ext k hk
    simp only [BitVec.getElem_extractLsb', busByte, BitVec.getLsbD_setWidth, BitVec.ofNat_eq_ofNat,
      BitVec.getElem_zero, Bool.and_eq_false_imp]
    intro _
    by_contra hset
    obtain ⟨hle, hbit⟩ := bit_of_wgmB (Bool.eq_true_of_not_eq_false hset)
    have hlt : 2 + (c.csLsb + k - c.wgmBShift) < 4 :=
      lt_four_of_modeOk d m hmode ⟨_, BitVec.lt_of_getLsbD hbit⟩ hbit
    omega
  rw [csOf, hclear]
  exact BitVec.setWidth_zero ..

/-- Settles O20: CTRLB holds the mode bits alone, and they are outside the clock-select field. -/
theorem activateWithoutClockDoesNotStart : Obligations.ActivateWithoutClockDoesNotStart := by
  intro s ie val hc hq hp hw hps hok hmode
  have he := exec_activate hp hw hps hok
  have hend := exec_activateEnd hc hq hok he
  obtain ⟨-, hbits, -, -⟩ := Config.wf_dev hc s.target
  have hB := hend.ctrlB
  rw [clockCode_eq hps, show csField (s.dev s.target) 0 = 0 from BitVec.zero_shiftLeft _,
    BitVec.ofNat_eq_ofNat, BitVec.or_zero] at hB
  have hcs := hB ▸ csOf_wgmB hbits hmode
  refine ⟨_, he, hB, hcs, by rw [hend.engine], fun v => if_pos ?_⟩
  rw [State.dev, hend.frame.cfg]
  exact hcs

/-! ### ACTIVATE while the counters tick (O21) -/

theorem noReset_of_ticksOnly {s : State} (h : s.ticksOnly = true) : s.noReset = true := by
  simp only [State.ticksOnly, State.noReset, List.all_eq_true] at h ⊢
  intro p hp m hm
  have htick := h p hp m hm
  cases m with
  | reset => cases htick
  | _ => rfl

theorem ticksOnly_tail {s t : State} (ha : t.agenda = s.agenda.tail) (h : s.ticksOnly = true) :
    t.ticksOnly = true := by
  rw [State.ticksOnly, List.all_eq_true] at *
  rw [ha]
  exact fun p hp => h p (List.mem_of_mem_tail hp)

theorem AlikeOff.mono {R R' : Set Reg} {s s' : State} (h : AlikeOff R s s') (hR : R ⊆ R') :
    AlikeOff R' s s' :=
  ⟨h.cfg, h.inst, fun r hr => h.regs r fun hr' => hr (hR hr')⟩

/-- The COUNT registers of the three instances. -/
def countRegs : Set Reg := {r | ∃ d, r = .count d}

/-- Counters that tick while a command runs that reads no COUNT change COUNT registers at most
(R44, R52). -/
theorem AlikeOff.runScript_ticks {d : Dev} {ops : List MicroOp} {s s' : State}
    (h : AlikeOff countRegs s s') (had : s.cfg.addrOk = true) (hs : s.agenda = [])
    (ht : s'.ticksOnly = true) (hops : ∀ op ∈ ops, ∀ r ∈ op.loads, r ∉ countRegs) :
    AlikeOff countRegs (Machine.runScript d ops s) (Machine.runScript d ops s') := by
  induction ops generalizing s s' with
  | nil => exact h
  | cons op ops ih =>
    obtain ⟨hinst, hregs, ht'⟩ := interleave_ticks ht (by rw [h.cfg, had])
    have hpoint : AlikeOff countRegs s (interleave s') :=
      ⟨(interleave_cfg s').trans h.cfg, hinst.trans h.inst, fun r hr =>
        (hregs r fun d e => hr ⟨d, e⟩).trans (h.regs r hr)⟩
    rw [Machine.runScript, Machine.runScript, interleave_of_agenda_nil hs, hpoint.inst]
    split
    · exact ih ((hpoint.seqStep had (hops op List.mem_cons_self) d ops.isEmpty).mono
        Set.sdiff_subset) (by simpa using had) (by simpa using hs)
        (by rwa [State.ticksOnly, seqStep_agenda]) fun o ho => hops o (List.mem_cons_of_mem _ ho)
    · exact hpoint

/-- The machine after micro-steps that are not the last of their command. -/
def ranTo (d : Dev) (ops : List MicroOp) (s : State) : State :=
  ops.foldl (fun s op => seqStep d op false (interleave s)) s

theorem ranTo_append (d : Dev) (ops ops' : List MicroOp) (s : State) :
    ranTo d (ops ++ ops') s = ranTo d ops' (ranTo d ops s) :=
  List.foldl_append

theorem ranTo_concat (d : Dev) (ops : List MicroOp) (op : MicroOp) (s : State) :
    ranTo d (ops ++ [op]) s = seqStep d op false (interleave (ranTo d ops s)) :=
  ranTo_append d ops [op] s

@[simp] theorem ranTo_cfg (d : Dev) (ops : List MicroOp) (s : State) :
    (ranTo d ops s).cfg = s.cfg :=
  List.foldlRecOn (motive := fun t : State => t.cfg = s.cfg) ops _ rfl fun t ht op _ => by simp [ht]

theorem ranTo_agenda (d : Dev) (ops : List MicroOp) (s : State) :
    (ranTo d ops s).agenda = s.agenda.drop ops.length := by
  induction ops generalizing s with
  | nil => rfl
  | cons op ops ih => exact (ih _).trans (by simp [List.drop_tail])

/-- With no reset to come, a command runs through to its last micro-step (R129). -/
theorem runScript_eq_ranTo (d : Dev) (ops : List MicroOp) (op : MicroOp) (s : State)
    (hn : s.noReset = true) (hb : (s.inst.get d).busy = true) :
    runScript d (ops ++ [op]) s = seqStep d op true (interleave (ranTo d ops s)) := by
  induction ops generalizing s with
  | nil =>
    rw [List.nil_append, runScript, (interleave_noReset hn).1, if_pos hb]
    rfl
  | cons o ops ih =>
    obtain ⟨hi, hn'⟩ := interleave_noReset hn
    have hlast : (ops ++ [op]).isEmpty = false := by simp
    rw [List.cons_append, runScript, hi, if_pos hb, hlast]
    exact ih _ (seqStep_noReset d o _ hn') (by rwa [seqStep_busy, hi])

/-- A property that every tick keeps, an interleaving point at which only counters move keeps. -/
theorem interleave_ticks_induct {P : State → Prop} {s : State} (ht : s.ticksOnly = true)
    (hmove : ∀ (s : State) (d : Dev) (v : Half), P s → P (counterMove s d v))
    (h : P s.passPoint) : P (interleave s) := by
  cases ha : s.agenda with
  | nil => rwa [interleave_quiet (by simp [State.quiet, ha])]
  | cons p ps =>
    rw [interleave_of_agenda_cons ha]
    refine List.foldlRecOn p envMove h fun t hP m hm => ?_
    simp only [State.ticksOnly, ha, List.all_cons, Bool.and_eq_true, List.all_eq_true] at ht
    have htick := ht.1 m hm
    cases m with
    | tick d v => exact hmove t d v hP
    | _ => cases htick

/-- The counter of an instance has no clock and stands at 0, and only counters move. -/
structure Halted (d : Dev) (s : State) : Prop where
  addrOk : s.cfg.addrOk = true
  ticks : s.ticksOnly = true
  clock : s.reg (.ctrlB d) = 0
  count : s.reg (.count d) = 0

/-- A counter with no clock has no move, and no counter moves another's COUNT (R52). -/
theorem Halted.counterMove {d : Dev} {s : State} (h : Halted d s) (e : Dev) (v : Half) :
    Halted d (counterMove s e v) := by
  rw [Machine.counterMove]
  split
  · exact h
  · rename_i hclock
    have hne : d ≠ e := by
      rintro rfl
      exact hclock (by simp [h.clock, csOf])
    exact ⟨h.addrOk, h.ticks, (State.reg_setReg_ne h.addrOk (by simp) v).trans h.clock,
      (State.reg_setReg_ne h.addrOk (by simpa using hne) v).trans h.count⟩

theorem Halted.interleave {d : Dev} {s : State} (h : Halted d s) : Halted d (interleave s) :=
  interleave_ticks_induct h.ticks (fun _ e v ht => ht.counterMove e v)
    ⟨h.addrOk, ticksOnly_tail rfl h.ticks, h.clock, h.count⟩

/-- A register that a micro-step does not write reads as before. -/
theorem seqStep_reg_of_not_written {s : State} (had : s.cfg.addrOk = true) (d : Dev) {op : MicroOp}
    (l : Bool) {r : Reg} (hr : r ∉ op.writes) : (seqStep d op l s).reg r = s.reg r := by
  rw [seqStep_reg]
  rw [op.writes_eq (s.inst.get d).t] at hr
  cases hst : op.store (s.inst.get d).t with
  | none => rfl
  | some p => exact State.reg_setReg_ne had (by simpa [hst] using hr) p.2

theorem Halted.ranTo {d : Dev} {ops : List MicroOp} {s : State} (h : Halted d s)
    (hops : ∀ op ∈ ops, .ctrlB d ∉ op.writes ∧ .count d ∉ op.writes) : Halted d (ranTo d ops s) := by
  refine List.foldlRecOn ops _ h fun t ht op hop => ?_
  obtain ⟨had, hticks, hclock, hcount⟩ := ht.interleave
  obtain ⟨hB, hC⟩ := hops op hop
  exact ⟨by rwa [seqStep_cfg], by rwa [State.ticksOnly, seqStep_agenda],
    (seqStep_reg_of_not_written had d false hB).trans hclock,
    (seqStep_reg_of_not_written had d false hC).trans hcount⟩

/-- The zero writes of CTRLB and COUNT, in this order, halt the counter (R103, R105). -/
theorem halted_of_zeroWrites {s : State} (d : Dev) (had : s.cfg.addrOk = true)
    (ht : s.ticksOnly = true) :
    Halted d (ranTo d [.write (.ctrlB d) 0, .write (.count d) 0] s) := by
  have hB : (seqStep d (.write (.ctrlB d) 0) false (interleave s)).reg (.ctrlB d) = 0 := by
    rw [seqStep_reg]
    exact (State.reg_setReg_same ..).trans (fitReg_zero _)
  have hC : ∀ t : State, (seqStep d (.write (.count d) 0) false t).reg (.count d) = 0 := by
    intro t
    rw [seqStep_reg]
    exact (State.reg_setReg_same ..).trans (fitReg_zero _)
  have ht' : (seqStep d (.write (.ctrlB d) 0) false (interleave s)).ticksOnly = true :=
    ticksOnly_tail (by simp) ht
  obtain ⟨-, hpoint, -⟩ := interleave_ticks ht' (by simpa using had)
  refine ⟨by simpa [ranTo] using had, ticksOnly_tail (by simp [ranTo]) ht', ?_, hC _⟩
  refine (seqStep_reg_of_not_written (by simpa using had) d false (by simp [MicroOp.writes])).trans ?_
  exact (hpoint _ (by simp)).trans hB

/-- An interleaving point with no move changes nothing but the agenda. -/
theorem interleave_of_no_move {s : State} (h : s.agenda.headD [] = []) :
    interleave s = s.passPoint := by
  cases ha : s.agenda with
  | nil => exact interleave_quiet (by simp [State.quiet, ha])
  | cons p ps =>
    obtain rfl : p = [] := by simpa [ha] using h
    exact interleave_of_agenda_cons ha

/-- The micro-steps of ACTIVATE between the zero writes and the write of CTRLB (R103). -/
def activateMiddle (ie : Bool) (val : Half) (d : Dev) (s : State) : List MicroOp :=
  [.write (.imask d) 0, .load (.imask d), .storeBit (.imask d) (toieMask (s.dev d)) ie,
    ceilingOp d (s.inst.get d).wm val, .load (.ctrlA d),
    .storeOr (.ctrlA d) (wgmA (s.dev d) (s.inst.get d).wm.mode)]

theorem activateMiddle_writes {ie : Bool} {val : Half} {d : Dev} {s : State}
    (hok : d.topOk (s.inst.get d).wm.top = true) :
    ∀ op ∈ activateMiddle ie val d s, .ctrlB d ∉ op.writes ∧ .count d ∉ op.writes := by
  have hceil : .ctrlB d ∉ (ceilingOp d (s.inst.get d).wm val).writes ∧
      .count d ∉ (ceilingOp d (s.inst.get d).wm val).writes := by
    rw [ceilingOp_writes]
    refine ⟨fun h => ?_, fun h => ?_⟩
    · obtain ⟨-, hB, -, -, -⟩ := topReg_ne hok (Option.mem_toList.mp h)
      exact hB rfl
    · obtain ⟨-, -, hC, -, -⟩ := topReg_ne hok (Option.mem_toList.mp h)
      exact hC rfl
  simpa [activateMiddle, MicroOp.writes] using hceil

/-- The micro-steps of ACTIVATE with the default ZERO_ORDER (R103). -/
theorem activateScript_default {s : State} {d : Dev} (ie : Bool) (val : Half)
    (hz : (s.dev d).zeroOrder = [.ctrlA, .ctrlB, .count, .imask]) :
    activateScript ie val d s =
      ([.write (.ctrlA d) 0, .write (.ctrlB d) 0, .write (.count d) 0] ++ activateMiddle ie val d s ++
        [.write (.ctrlB d) (busByte (wgmB (s.dev d) (s.inst.get d).wm.mode |||
          csField (s.dev d) (clockCode d s)))]) ++ [.start] := by
  rw [activateScript, zeroScript, hz]
  rfl

/-- When ACTIVATE comes to write CTRLB, the counter is halted (R105). -/
theorem halted_before_clock {ie : Bool} {val : Half} {d : Dev} {s t : State}
    (hok : d.topOk (s.inst.get d).wm.top = true) (had : t.cfg.addrOk = true)
    (ht : t.ticksOnly = true) :
    Halted d (ranTo d ([.write (.ctrlA d) 0, .write (.ctrlB d) 0, .write (.count d) 0] ++
      activateMiddle ie val d s) t) := by
  rw [ranTo_append]
  exact Halted.ranTo (halted_of_zeroWrites d (by simpa using had) (ticksOnly_tail (by simp) ht))
    (activateMiddle_writes hok)

/-- With the default ZERO_ORDER and no tick at the interleaving point after the CTRLB write, ACTIVATE
ends with COUNT at 0 (R105). -/
theorem activate_count_of_ticks {s t : State} {ie : Bool} {val : Half} {d : Dev}
    (hz : (s.dev d).zeroOrder = [.ctrlA, .ctrlB, .count, .imask])
    (hok : d.topOk (s.inst.get d).wm.top = true) (had : t.cfg.addrOk = true)
    (ht : t.ticksOnly = true) (hb : (t.inst.get d).busy = true) (h10 : t.agenda.getD 10 [] = []) :
    (runScript d (activateScript ie val d s) t).reg (.count d) = 0 := by
  have hhalt := (halted_before_clock (ie := ie) (val := val) hok had ht).interleave
  rw [activateScript_default ie val hz, runScript_eq_ranTo _ _ _ _ (noReset_of_ticksOnly ht) hb,
    interleave_of_no_move]
  · rw [seqStep_reg_of_not_written (by simpa using had) d true (by simp [MicroOp.writes]),
      State.reg_passPoint, ranTo_concat,
      seqStep_reg_of_not_written hhalt.addrOk d false (by simp [MicroOp.writes]), hhalt.count]
  · rw [ranTo_agenda]
    simpa [activateMiddle, List.headD_eq_head?_getD] using h10

theorem activateScript_loads_no_count {ie : Bool} {val : Half} {d : Dev} {s : State} :
    ∀ op ∈ activateScript ie val d s, ∀ r ∈ op.loads, r ∉ countRegs := by
  intro op ho r hr
  have : r ∈ (activateScript ie val d s).flatMap MicroOp.loads := List.mem_flatMap.mpr ⟨op, ho, hr⟩
  rw [activateScript_loads] at this
  rintro ⟨e, rfl⟩
  simp at this

/-- Settles O21: but for COUNT the end state is that of the ACTIVATE during which nothing moves; and
COUNT stands from its zero write to the write of CTRLB. -/
theorem activateUnderCounterTicks : Obligations.ActivateUnderCounterTicks := by
  intro s ie val code hc ht hz hp hw hps hok
  have had := Config.wf_addrOk hc
  have hundisturbed := exec_activate (s := { s with agenda := [] }) hp hw hps hok
  have hscript : activateScript ie val s.target { s with agenda := [] } =
      activateScript ie val s.target s := scriptOf_agenda (.activate ie val) s.target s []
  rw [hscript] at hundisturbed
  have hend := exec_activateEnd (s := { s with agenda := [] }) hc rfl hok hundisturbed
  have halike := AlikeOff.runScript_ticks (d := s.target) (ops := activateScript ie val s.target s)
    (s := State.accept { s with agenda := [] } (.activate ie val))
    (s' := s.accept (.activate ie val)) ⟨rfl, rfl, fun _ _ => rfl⟩ had rfl ht
    activateScript_loads_no_count
  have hcount := activate_count_of_ticks (t := s.accept (.activate ie val)) (ie := ie) (val := val)
    hz hok had ht (by simp)
  refine ⟨_, exec_activate hp hw hps hok, ?_, ?_, ?_, fun r hr => ?_, hcount⟩
  · exact (halike.regs _ (by simp [countRegs])).trans hend.ctrlA
  · rw [← clockCode_eq hps]
    exact (halike.regs _ (by simp [countRegs])).trans hend.ctrlB
  · exact (halike.regs _ (by simp [countRegs])).trans hend.imask
  · obtain ⟨-, -, -, -, htop⟩ := topReg_ne hok hr
    have hnot : r ∉ countRegs := by rcases htop with rfl | rfl <;> simp [countRegs]
    exact (halike.regs r hnot).trans (hend.ceiling r hr)

/-! ### A second ACTIVATE (O22) -/

/-- A command leaves no move to come where there was none. -/
theorem exec_keeps_quiet {i : Instr} {s t : State} (hq : s.quiet = true)
    (he : exec i s = .next t) : t.quiet = true := by
  obtain ⟨-, ⟨-, rfl⟩ | ⟨-, -, rfl⟩⟩ := exec_next_quiet he hq
  · exact hq
  · exact quietRun_quiet _ _ (quiet_of_agenda rfl hq)

/-- Settles O22: the second ACTIVATE starts from the same captured pair, so its end state is that of
the first. -/
theorem repeatedActivateEndsAlike : Obligations.RepeatedActivateEndsAlike := by
  intro s t u ie val hc hq _ hok he he'
  have h1 := exec_activateEnd hc hq hok he
  have hwm : (t.inst.get s.target).wm = (s.inst.get s.target).wm := by rw [h1.engine]
  have hps : (t.inst.get s.target).ps = (s.inst.get s.target).ps := by rw [h1.engine]
  have h2 := exec_activateEnd (by rwa [h1.frame.cfg]) (exec_keeps_quiet hq he)
    (by rwa [h1.frame.target, hwm]) he'
  obtain ⟨hA, hB, hI, hcount, hceil, hinst, hframe⟩ := h2
  simp only [State.dev, clockCode, h1.frame.target, h1.frame.cfg, hwm, hps]
    at hA hB hI hcount hceil hinst hframe
  refine ⟨h1.frame.read_eq hframe ?_, hcount, ?_⟩
  · intro r hr
    simp only [List.cons_append, List.nil_append, List.mem_cons, Option.mem_toList] at hr
    rcases hr with rfl | rfl | rfl | rfl | hr
    · exact hA.trans h1.ctrlA.symm
    · exact hB.trans h1.ctrlB.symm
    · exact hcount.trans h1.count.symm
    · exact hI.trans h1.imask.symm
    · exact (hceil r hr).trans (h1.ceiling r hr).symm
  · refine PerDev.ext_get fun d => ?_
    rcases eq_or_ne d s.target with rfl | hd
    · rw [hinst, h1.engine]
    · exact hframe.others d (by rwa [h1.frame.target])

/-! ### A discarded TOP value (O23) -/

/-- The state with another word in the latch of an instance. -/
def State.relatch (s : State) (d : Dev) (w : Word) : State :=
  s.setInst d { s.inst.get d with cmd := w }

theorem State.accept_relatch (s : State) (i i' : Instr) :
    s.accept i' = (s.accept i).relatch s.target (encode i') := by
  simp [State.accept, State.relatch, State.setInst]

/-- No micro-step reads the latch. -/
theorem seqStep_relatch (d : Dev) (op : MicroOp) (l : Bool) (s : State) (w : Word) :
    seqStep d op l (s.relatch d w) = (seqStep d op l s).relatch d w := by
  cases op <;> cases l <;> cases d <;> rfl

theorem quietRun_relatch (d : Dev) (ops : List MicroOp) (s : State) (w : Word) :
    quietRun d ops (s.relatch d w) = (quietRun d ops s).relatch d w := by
  induction ops generalizing s with
  | nil => rfl
  | cons op ops ih =>
    rw [quietRun, quietRun, ← ih, ← seqStep_relatch]
    rfl

theorem ceilingOp_of_fixed {wm : WaveformMode} (d : Dev) (val : Half)
    (h : hasDynamicTop wm = false) : ceilingOp d wm val = .skip := by
  simp only [ceilingOp, topReg_of_fixed h]

/-- Two commands with the same micro-steps end alike, but for the latch. -/
theorem exec_relatch {s t t' : State} {i i' : Instr} (hq : s.quiet = true)
    (hg : guardFails i = false) (hg' : guardFails i' = false)
    (hs : scriptOf i' s.target s = scriptOf i s.target s)
    (he : exec i s = .next t) (he' : exec i' s = .next t') :
    t' = t.relatch s.target (encode i') := by
  obtain ⟨-, ⟨h, -⟩ | ⟨-, -, rfl⟩⟩ := exec_next_quiet he hq
  · exact absurd (hg.symm.trans h) Bool.false_ne_true
  obtain ⟨-, ⟨h, -⟩ | ⟨-, -, rfl⟩⟩ := exec_next_quiet he' hq
  · exact absurd (hg'.symm.trans h) Bool.false_ne_true
  rw [hs, State.accept_relatch s i i', quietRun_relatch]

/-- Settles O23: with a fixed ceiling no micro-step holds the value. -/
theorem fixedCeilingDiscardsTop : Obligations.FixedCeilingDiscardsTop := by
  intro s t t' ie v v' hfix he hq
  have hlatch : ∃ w, t' = t.relatch s.target w := by
    rcases he with ⟨he, he'⟩ | ⟨he, he'⟩
    · exact ⟨_, exec_relatch hq rfl rfl
        (by simp only [scriptOf, activateScript, ceilingOp_of_fixed _ _ hfix]) he he'⟩
    · exact ⟨_, exec_relatch hq rfl rfl
        (by simp only [scriptOf, updtopScript, ceilingOp_of_fixed _ _ hfix]) he he'⟩
  obtain ⟨w, rfl⟩ := hlatch
  refine ⟨rfl, rfl, ?_⟩
  simp [State.relatch]

end Sys2Proof.Machine
end

section
/-! The channel family: ACTCH and UPDCMP on a valid channel and on one out of range, and the order of
the commands of two channels. -/

namespace Sys2Proof.Machine

/-! ### A channel out of range (O28) -/

/-- On an idle instance the passing over of a command changes the latch alone. -/
theorem State.passOver_of_idle {s : State} (i : Instr)
    (h : (s.inst.get s.target).idle = true) :
    s.passOver i =
      { s with inst := s.inst.set s.target { s.inst.get s.target with cmd := encode i } } := by
  simp only [Inst.idle, Bool.and_eq_true, Bool.not_eq_true', beq_iff_eq] at h
  obtain ⟨hbusy, hseq⟩ := h
  simp only [State.passOver, State.setInst, hbusy, hseq]

/-- Settles O28: the guard turns the command away before its first micro-step, and the sequencer was
idle already. -/
theorem outOfRangeChannelIsSilentNoop : Obligations.OutOfRangeChannelIsSilentNoop := by
  intro s i ch hi hch hp hw hidle
  have hchannel : channelOf i = some ch := by
    rcases hi with ⟨com, ie, val, rfl⟩ | ⟨val, rfl⟩ | rfl <;> rfl
  have hg : guardFails i = true := by
    simp only [guardFails, hchannel, outOfRange, hch, decide_true]
  rw [exec_eq_perform, perform_outOfRange (legality_eq_none (.inl hp) hw) hg,
    State.passOver_of_idle i (State.allIdle_iff.mp hidle s.target)]

/-! ### The end of a command with no move to come -/

/-- The trace entries of a micro-step, from what it sees: its read, then its write (R60). -/
def MicroOp.entries (v : Byte × (Reg → Half)) (op : MicroOp) : List BusEvent :=
  op.loads.map (fun r => .seqRead r (v.2 r)) ++
    (op.store v.1).toList.map fun p => .seqWrite p.1 (fitReg p.1 p.2)

/-- The trace entries of a run of micro-steps, each of which sees what those before it have left. -/
def entriesOf : List MicroOp → Byte × (Reg → Half) → List BusEvent
  | [], _ => []
  | op :: ops, v => op.entries v ++ entriesOf ops (op.effect v)

theorem events_eq_entries (s : State) (d : Dev) (op : MicroOp) :
    op.events s (s.inst.get d).t = op.entries (s.view d) := by
  cases op <;> simp [MicroOp.events, MicroOp.entries, MicroOp.loads, MicroOp.store, State.view]

theorem quietRun_trace (d : Dev) (ops : List MicroOp) {s : State} (had : s.cfg.addrOk = true) :
    (quietRun d ops s).trace = s.trace ++ entriesOf ops (s.view d) := by
  induction ops generalizing s with
  | nil => simp [quietRun, entriesOf]
  | cons op ops ih =>
    rw [quietRun, ih (by simpa using had), seqStep_trace, seqStep_view (by simpa using had),
      events_eq_entries, List.append_assoc]
    rfl

/-- An instance at rest after the command latched as `w`, which left `t` in the temporary. -/
def Inst.ended (x : Inst) (w : Word) (t : Byte) : Inst :=
  Inst.atRest { x with cmd := w } t

theorem MicroOp.record_ended (op : MicroOp) (x : Inst) (w : Word) (t : Byte) :
    op.record (x.ended w t) = (op.record x).ended w t := by
  cases op <;> rfl

/-- No micro-step records anything from the sequencer's own registers. -/
theorem foldl_record_ended (ops : List MicroOp) (x : Inst) (w : Word) (t : Byte) :
    ops.foldl MicroOp.record (x.ended w t) = (ops.foldl MicroOp.record x).ended w t :=
  List.foldl_hom (Inst.ended · w t) fun x op => op.record_ended x w t

/-- What a command with the micro-steps `ops` leaves where no move was to come: the temporary and the
registers, the trace, the engine, and everything else as it was. -/
structure QuietEnd (s : State) (i : Instr) (ops : List MicroOp) (t : State) : Prop where
  view : t.view s.target = ops.foldl MicroOp.effect (s.view s.target)
  trace : t.trace = s.trace ++ entriesOf ops (s.view s.target)
  engine : t.inst.get s.target =
    (ops.foldl MicroOp.record (s.inst.get s.target)).ended (encode i) (t.inst.get s.target).t
  frame : Untouched s t (ops.flatMap MicroOp.writes)

theorem exec_quietEnd {i : Instr} {ops : List MicroOp} {s t : State} (had : s.cfg.addrOk = true)
    (hq : s.quiet = true) (hg : guardFails i = false) (hs : scriptOf i s.target s = ops)
    (he : exec i s = .next t) : QuietEnd s i ops t := by
  obtain ⟨hl, ⟨hg', -⟩ | ⟨-, -, rfl⟩⟩ := exec_next_quiet he hq
  · exact absurd (hg.symm.trans hg') Bool.false_ne_true
  obtain ⟨op, rest, hcons⟩ := List.exists_cons_of_ne_nil (scriptOf_ne_nil hl hg)
  subst hs
  refine ⟨?_, ?_, ?_, untouched_quietRun fun _ hr => hr⟩
  · rw [quietRun_view _ _ (s := s.accept i) had, State.accept_view]
  · rw [quietRun_trace _ _ (s := s.accept i) had, State.accept_view, State.accept_trace]
  · have hinst := quietRun_inst s.target op rest (s.accept i)
    rw [← hcons, ← foldl_record_atRest, State.accept_inst, PerDev.get_set_same] at hinst
    rw [← foldl_record_ended]
    exact hinst

theorem QuietEnd.reg {i : Instr} {ops : List MicroOp} {s t : State} (h : QuietEnd s i ops t)
    (r : Reg) : t.reg r = (ops.foldl MicroOp.effect (s.view s.target)).2 r :=
  congrFun (congrArg Prod.snd h.view) r

theorem QuietEnd.temp {i : Instr} {ops : List MicroOp} {s t : State} (h : QuietEnd s i ops t) :
    (t.inst.get s.target).t = (ops.foldl MicroOp.effect (s.view s.target)).1 :=
  congrArg Prod.fst h.view

/-! ### UPDCMP (O29) -/

theorem scriptOf_updcmp {ch : Channel} {k : Slot} (hk : slot ch = some k) (val : Half) (d : Dev)
    (s : State) : scriptOf (.updcmp ch val) d s = [.write (.compare d k) val] := by
  simp only [scriptOf, updcmpScript, hk]

/-- A VAL that an instance accepts is what its compare registers hold after the write (R45, R78). -/
theorem fitReg_compare {d : Dev} {val : Half} (k : Slot) (h : valWellFormed d val = true) :
    fitReg (.compare d k) val = val :=
  fitReg_of_res rfl (of_decide_eq_true h)

/-- Settles O29: the one micro-step is the write of the compare register. -/
theorem updcmpWritesCompare : Obligations.UpdcmpWritesCompare := by
  intro s ch val k hc hq hp hw hk
  have hg : guardFails (.updcmp ch val) = false := guardFails_of_slot rfl hk
  have he := exec_quiet (legality_eq_none (.inl hp) hw) hg rfl hq
  have hend := exec_quietEnd (Config.wf_addrOk hc) hq hg (scriptOf_updcmp hk val s.target s) he
  have hfit := fitReg_compare k hw
  refine ⟨_, he, ?_, ?_, ?_, hend.frame⟩
  · rw [hend.reg]
    simp [MicroOp.effect, MicroOp.store, hfit]
  · rw [hend.engine, hend.temp]
    rfl
  · rw [hend.trace]
    simp [entriesOf, MicroOp.entries, MicroOp.loads, MicroOp.store, hfit]

/-! ### ACTCH (O24, O25) -/

/-- The micro-steps of ACTCH on a valid channel (R108). -/
def connectOps (c : DevConfig) (d : Dev) (k : Slot) (com : BitVec 2) (ie : Bool) (val : Half) :
    List MicroOp :=
  [.load (.ctrlA d), .storeOr (.ctrlA d) (comField c k (comName c com)),
   .load (.imask d), .storeBit (.imask d) (ocieMask c k) ie,
   .write (.compare d k) val, .connect k (comName c com)]

theorem scriptOf_actch {ch : Channel} {k : Slot} (hk : slot ch = some k) (com : BitVec 2) (ie : Bool)
    (val : Half) (d : Dev) (s : State) :
    scriptOf (.actch ch com ie val) d s = connectOps (s.dev d) d k com ie val := by
  simp only [scriptOf, actchScript, hk, connectOps]

/-- What the micro-steps of ACTCH make of the temporary and the registers. -/
theorem foldl_effect_connectOps (c : DevConfig) (d : Dev) (k : Slot) (com : BitVec 2) (ie : Bool)
    (val : Half) (v : Byte × (Reg → Half)) :
    (connectOps c d k com ie val).foldl MicroOp.effect v =
      ((v.2 (.imask d)).setWidth 8,
        Function.update (Function.update (Function.update v.2
          (.ctrlA d) (busByte ((v.2 (.ctrlA d)).setWidth 8 ||| comField c k (comName c com))))
          (.imask d) (busByte (setBit ((v.2 (.imask d)).setWidth 8) (ocieMask c k) ie)))
          (.compare d k) (fitReg (.compare d k) val)) := by
  simp [connectOps, MicroOp.effect, MicroOp.temp, MicroOp.store]

/-- Settles O24: the first five micro-steps make the registers and the trace, the sixth the channel
record. -/
theorem actchConnectsChannel : Obligations.ActchConnectsChannel := by
  intro s ch com ie val k a m hc hq hp hw hk ha hm
  have hg : guardFails (.actch ch com ie val) = false := guardFails_of_slot rfl hk
  have he := exec_quiet (legality_eq_none (.inl hp) hw) hg rfl hq
  have hend :=
    exec_quietEnd (Config.wf_addrOk hc) hq hg (scriptOf_actch hk com ie val s.target s) he
  have hview := foldl_effect_connectOps (s.dev s.target) s.target k com ie val (s.view s.target)
  simp only [State.view, ha, hm, busByte_setWidth, fitReg_compare k hw] at hview
  refine ⟨_, he, ?_, ?_, ?_, ?_, ?_, hend.frame⟩
  · rw [hend.reg, State.view, hview]
    simp
  · rw [hend.reg, State.view, hview]
    simp
  · rw [hend.reg, State.view, hview]
    simp
  · rw [hend.engine, hend.temp, State.view, hview]
    rfl
  · rw [hend.trace]
    simp [connectOps, entriesOf, MicroOp.entries, MicroOp.loads, MicroOp.store, MicroOp.effect,
      MicroOp.temp, State.view, ha, hm, busByte_setWidth, fitReg_compare k hw]

theorem comOf_or (c : DevConfig) (k : Slot) (a b : Byte) :
    comOf c k (busByte (a ||| b)) = comOf c k (busByte a) ||| comOf c k (busByte b) := by
  ext j hj
  simp [comOf, busByte]

theorem dev_bitsOk {s : State} (h : s.cfg.wf = true) (d : Dev) : (s.dev d).bitsOk = true := by
  obtain ⟨-, hbits, -, -⟩ := Config.wf_dev h d
  exact hbits

/-- A channel's COM field and its enable bit lie in their 8-bit registers (R70, R71). -/
theorem channel_bits_lt {c : DevConfig} (h : c.bitsOk = true) (k : Slot) :
    c.comOffset.get k + 2 ≤ 8 ∧ c.ocieBit.get k < 8 := by
  simp only [DevConfig.bitsOk, Bool.and_eq_true, decide_eq_true_eq] at h
  rw [PerChan.get, PerChan.get]
  split <;> omega

/-- A channel's field of CTRLA holds the code `comField` places there (R70). -/
theorem comOf_comField {c : DevConfig} (h : c.bitsOk = true) (k : Slot) (m : ComMode) :
    comOf c k (busByte (comField c k m)) = c.comCode.get m := by
  obtain ⟨hle, -⟩ := channel_bits_lt h k
  ext j hj
  simp only [comOf, busByte, comField, BitVec.getElem_extractLsb', BitVec.getLsbD_setWidth,
    BitVec.getLsbD_shiftLeft, Nat.add_sub_cancel_left]
  rw [BitVec.getLsbD_eq_getElem hj]
  have hlt : c.comOffset.get k + j < 8 := by omega
  simp [hlt, Nat.lt_trans hlt (show 8 < 16 by decide), Nat.lt_trans hj (show 2 < 8 by decide)]

/-- Settles O25: the end state of O24, read through the channel's COM field and enable bit. -/
theorem actchAccumulatesComField : Obligations.ActchAccumulatesComField := by
  intro s ch com ie val k hc hq hp hw hk
  have hbits := dev_bitsOk hc s.target
  obtain ⟨-, hcodes⟩ := everyModeCodeNamesOneMode s.cfg s.target hc
  have hcode : (s.dev s.target).comCode.get (comName (s.dev s.target) com) = com := hcodes com
  have hbyteA := busByte_reg s (r := .ctrlA s.target) rfl
  have hbyteI := busByte_reg s (r := .imask s.target) rfl
  obtain ⟨t, he, hA, hI, hcmp, hinst, -, -⟩ :=
    actchConnectsChannel s ch com ie val k _ _ hc hq hp hw hk hbyteA.symm hbyteI.symm
  refine ⟨t, he, ?_, ?_, hcmp, ?_, hcode⟩
  · rw [hA, comOf_or, hbyteA, comOf_comField hbits, hcode]
  · obtain ⟨-, hlt⟩ := channel_bits_lt hbits k
    rw [hI, busByte, BitVec.getLsbD_setWidth, ocieMask, setBit_getLsbD _ _ _ hlt, if_pos rfl,
      decide_eq_true (Nat.lt_trans hlt (by decide)), Bool.true_and]
  · rw [hinst]
    exact PerChan.get_set_same ..

/-! ### Two channels (O27) -/

theorem index_of_slot {ch : Channel} {k : Slot} (h : slot ch = some k) : ch.index.toNat = k := by
  unfold slot at h
  split at h
  · cases h
    rfl
  · cases h

/-- Two different channels have two entries of the channel table (R46). -/
theorem slot_ne {p q : Channel} {k l : Slot} (hne : p ≠ q) (hp : slot p = some k)
    (hq : slot q = some l) : k ≠ l := by
  rintro rfl
  have hindex : p.index = q.index :=
    BitVec.eq_of_toNat_eq ((index_of_slot hp).trans (index_of_slot hq).symm)
  exact hne (by rw [← Channel.ofIndex_index p, hindex, Channel.ofIndex_index])

theorem Untouched.trans {s t u : State} {W W' : List Reg} (h : Untouched s t W)
    (h' : Untouched t u W') : Untouched s u (W ++ W') where
  cfg := h'.cfg.trans h.cfg
  gie := h'.gie.trans h.gie
  port := h'.port.trans h.port
  target := h'.target.trans h.target
  others := fun d hd => (h'.others d (h.target.symm ▸ hd)).trans (h.others d hd)
  bytes := fun a ha => (h'.bytes a fun r hr => h.cfg.symm ▸ ha r (List.mem_append_right _ hr)).trans
    (h.bytes a fun r hr => ha r (List.mem_append_left _ hr))

/-- Two states with the same registers that differ from a third in registers only have the same
bytes. -/
theorem Untouched.read_eq_of_reg {s u u' : State} {W W' : List Reg} (h : Untouched s u W)
    (h' : Untouched s u' W') (hr : ∀ r, u.reg r = u'.reg r) (a : Nat) :
    u.mem.read a = u'.mem.read a := by
  by_cases ha : ∃ r, occupies s.cfg r a = true
  · obtain ⟨r, hocc⟩ := ha
    exact read_of_reg (h.cfg.trans h'.cfg.symm) (hr r) (by rwa [h'.cfg])
  · have hout : ∀ r, occupies s.cfg r a = false := fun r =>
      Bool.eq_false_of_not_eq_true fun hocc => ha ⟨r, hocc⟩
    exact (h.bytes a fun r _ => hout r).trans (h'.bytes a fun r _ => hout r).symm

/-- Two runs of micro-steps make the same registers and engine records in either order. -/
structure OpsCommute (P Q : List MicroOp) : Prop where
  regs : ∀ v : Byte × (Reg → Half),
    ((P ++ Q).foldl MicroOp.effect v).2 = ((Q ++ P).foldl MicroOp.effect v).2
  record : ∀ x : Inst, (P ++ Q).foldl MicroOp.record x = (Q ++ P).foldl MicroOp.record x

/-- One command after another leaves the registers their micro-steps compute one after another. -/
theorem QuietEnd.reg_then {s t u : State} {i j : Instr} {P Q : List MicroOp}
    (h : QuietEnd s i P t) (h' : QuietEnd t j Q u) (r : Reg) :
    u.reg r = ((P ++ Q).foldl MicroOp.effect (s.view s.target)).2 r := by
  rw [h'.reg, h.frame.target, h.view, List.foldl_append]

/-- One command after another records what their micro-steps record one after another. -/
theorem QuietEnd.engine_then {s t u : State} {i j : Instr} {P Q : List MicroOp}
    (h : QuietEnd s i P t) (h' : QuietEnd t j Q u) :
    u.inst.get s.target = ((P ++ Q).foldl MicroOp.record (s.inst.get s.target)).ended (encode j)
      (u.inst.get s.target).t := by
  have hu := h'.engine
  rw [h.frame.target, h.engine, foldl_record_ended, ← List.foldl_append] at hu
  exact hu

/-- Two commands whose micro-steps commute end alike in either order. -/
theorem exec_comm {s t u t' u' : State} {i j : Instr} {P Q : List MicroOp}
    (had : s.cfg.addrOk = true) (hq : s.quiet = true)
    (hgi : guardFails i = false) (hgj : guardFails j = false)
    (hP : ∀ x : State, x.cfg = s.cfg → scriptOf i s.target x = P)
    (hQ : ∀ x : State, x.cfg = s.cfg → scriptOf j s.target x = Q) (hcomm : OpsCommute P Q)
    (hi : exec i s = .next t) (hij : exec j t = .next u)
    (hj : exec j s = .next t') (hji : exec i t' = .next u') :
    (∀ a, u.mem.read a = u'.mem.read a) ∧
      (u.inst.get s.target).com = (u'.inst.get s.target).com ∧
      (u.inst.get s.target).chActive = (u'.inst.get s.target).chActive := by
  have h1 := exec_quietEnd had hq hgi (hP s rfl) hi
  have h1' := exec_quietEnd had hq hgj (hQ s rfl) hj
  have h2 := exec_quietEnd (h1.frame.cfg.symm ▸ had) (exec_keeps_quiet hq hi) hgj
    (h1.frame.target.symm ▸ hQ t h1.frame.cfg) hij
  have h2' := exec_quietEnd (h1'.frame.cfg.symm ▸ had) (exec_keeps_quiet hq hj) hgi
    (h1'.frame.target.symm ▸ hP t' h1'.frame.cfg) hji
  have hregs : ∀ r, u.reg r = u'.reg r := fun r =>
    (h1.reg_then h2 r).trans ((congrFun (hcomm.regs _) r).trans (h1'.reg_then h2' r).symm)
  refine ⟨(h1.frame.trans h2.frame).read_eq_of_reg (h1'.frame.trans h2'.frame) hregs, ?_, ?_⟩
  · rw [h1.engine_then h2, h1'.engine_then h2', hcomm.record]
    rfl
  · rw [h1.engine_then h2, h1'.engine_then h2', hcomm.record]
    rfl

/-- Settings of two different bits commute. -/
theorem setBit_comm (v : Byte) {a b : Nat} (f g : Bool) (hne : a ≠ b) :
    setBit (setBit v (1#8 <<< a) f) (1#8 <<< b) g =
      setBit (setBit v (1#8 <<< b) g) (1#8 <<< a) f := by
  ext j hj
  simp only [← BitVec.getLsbD_eq_getElem, setBit_getLsbD _ _ _ hj]
  by_cases hja : j = a
  · simp [hja, hne]
  · simp [hja]

/-- The enable bits of two channels are different bits of IMASK (R71). -/
theorem ocieBit_ne {c : DevConfig} (h : c.bitsOk = true) {k l : Slot} (hne : k ≠ l) :
    c.ocieBit.get k ≠ c.ocieBit.get l := by
  simp only [DevConfig.bitsOk, Bool.and_eq_true, decide_eq_true_eq] at h
  obtain ⟨⟨⟨-, hab⟩, -⟩, -⟩ := h
  by_cases hk : k = 0
  · have hl : l = 1 := slot_eq_one fun hl => hne (hk.trans hl.symm)
    simpa [PerChan.get, hk, hl] using hab
  · have hl : l = 0 := by_contra fun hl => hne ((slot_eq_one hk).trans (slot_eq_one hl).symm)
    simpa [PerChan.get, hk, hl] using hab.symm

/-- Writes of two compare registers commute. -/
theorem opsCommute_compare (d : Dev) {k l : Slot} (hne : k ≠ l) (vp vq : Half) :
    OpsCommute [.write (.compare d k) vp] [.write (.compare d l) vq] where
  regs := fun v => Function.update_comm (by simpa using hne) ..
  record := fun _ => rfl

/-- The micro-steps of ACTCH on two channels commute: they accumulate in CTRLA, set different bits of
IMASK, and write different compare registers and records. -/
theorem opsCommute_connect {c : DevConfig} (hbits : c.bitsOk = true) (d : Dev) {k l : Slot}
    (hne : k ≠ l) (cp cq : BitVec 2) (ip iq : Bool) (vp vq : Half) :
    OpsCommute (connectOps c d k cp ip vp) (connectOps c d l cq iq vq) where
  regs := fun v => by
    simp only [List.foldl_append, foldl_effect_connectOps]
    funext r
    by_cases hA : r = .ctrlA d
    · subst hA
      simp [busByte_setWidth, BitVec.or_assoc, BitVec.or_comm (comField c k _)]
    by_cases hI : r = .imask d
    · subst hI
      simp [busByte_setWidth, ocieMask, setBit_comm _ _ _ (ocieBit_ne hbits hne)]
    by_cases hk : r = .compare d k
    · subst hk
      simp [hne]
    · simp [Function.update_apply, hA, hI, hk]
  record := fun x => by
    have hcom := PerChan.set_comm x.com (comName c cp) (comName c cq) hne.symm
    have hact := PerChan.set_comm x.chActive true true hne.symm
    simp [connectOps, MicroOp.record, Inst.connected, hcom, hact]

/-- Settles O27: the micro-steps of the two channels commute. -/
theorem channelCommandsCommute : Obligations.ChannelCommandsCommute := by
  intro s t u t' u' p q cp cq ip iq vp vq hc hq hne hp hq' he
  have had := Config.wf_addrOk hc
  obtain ⟨k, hk⟩ := slot_isSome_of_inRange hp
  obtain ⟨l, hl⟩ := slot_isSome_of_inRange hq'
  have hkl := slot_ne hne hk hl
  rcases he with ⟨he, he2, he', he2'⟩ | ⟨he, he2, he', he2'⟩
  · refine exec_comm had hq (guardFails_of_slot rfl hk) (guardFails_of_slot rfl hl)
      (fun x hx => ?_) (fun x hx => ?_)
      (opsCommute_connect (dev_bitsOk hc s.target) s.target hkl cp cq ip iq vp vq) he he2 he' he2'
    · rw [scriptOf_actch hk, State.dev, State.dev, hx]
    · rw [scriptOf_actch hl, State.dev, State.dev, hx]
  · exact exec_comm had hq (guardFails_of_slot rfl hk) (guardFails_of_slot rfl hl)
      (fun x _ => scriptOf_updcmp hk vp s.target x) (fun x _ => scriptOf_updcmp hl vq s.target x)
      (opsCommute_compare s.target hkl vp vq) he he2 he' he2'

end Sys2Proof.Machine
end

section
/-! The family of TOP and pin: UPDTOP, ACTPIN, and the bits that no command clears. -/

namespace Sys2Proof.Machine

/-! ### UPDTOP (O30) -/

/-- R114, R115: the end state of an UPDTOP that ran with no move to come. -/
structure UpdtopEnd (s : State) (val : Half) (t : State) : Prop where
  engine : t.inst.get s.target =
    { s.inst.get s.target with busy := false, cmd := encode (.updtop val), seq := 0 }
  trace : t.trace = s.trace ++
    (topReg s.target (s.inst.get s.target).wm).toList.map (.seqWrite · val)
  ceiling : ∀ r, topReg s.target (s.inst.get s.target).wm = some r → t.reg r = val
  frame : Untouched s t (topReg s.target (s.inst.get s.target).wm).toList

/-- A VAL that an instance accepts is what its ceiling register holds after the write (R45, R78). -/
theorem fitReg_topReg {d : Dev} {wm : WaveformMode} {r : Reg} {val : Half}
    (hok : d.topOk wm.top = true) (hr : topReg d wm = some r) (h : valWellFormed d val = true) :
    fitReg r val = val :=
  fitReg_of_res (topReg_bytes hok hr) (of_decide_eq_true h)

/-- The ceiling write records nothing in the engine (R114). -/
theorem ceilingOp_record (d : Dev) (wm : WaveformMode) (val : Half) (x : Inst) :
    (ceilingOp d wm val).record x = x := by
  simp only [ceilingOp]
  split <;> rfl

theorem ceilingOp_temp (d : Dev) (wm : WaveformMode) (val : Half) (v : Byte × (Reg → Half)) :
    (ceilingOp d wm val).temp v = v.1 := by
  simp only [ceilingOp]
  split <;> rfl

theorem ceilingOp_store (d : Dev) (wm : WaveformMode) (val : Half) (t : Byte) :
    (ceilingOp d wm val).store t = (topReg d wm).map (·, val) := by
  simp only [ceilingOp]
  split <;> simp [MicroOp.store, *]

theorem exec_updtopEnd {s t : State} {val : Half} (hc : s.cfg.wf = true) (hq : s.quiet = true)
    (hw : (Instr.updtop val).wf s.cfg s.target = true)
    (hok : s.target.topOk (s.inst.get s.target).wm.top = true)
    (he : exec (.updtop val) s = .next t) : UpdtopEnd s val t := by
  have hend : QuietEnd s (.updtop val) [ceilingOp s.target (s.inst.get s.target).wm val] t :=
    exec_quietEnd (Config.wf_addrOk hc) hq rfl rfl he
  have hfit : ∀ r, topReg s.target (s.inst.get s.target).wm = some r → fitReg r val = val :=
    fun _ hr => fitReg_topReg hok hr hw
  refine ⟨?_, ?_, fun r hr => ?_, ?_⟩
  · rw [hend.engine, hend.temp]
    simp only [List.foldl_cons, List.foldl_nil, ceilingOp_record, MicroOp.effect, ceilingOp_temp]
    rfl
  · rw [hend.trace]
    simp only [entriesOf, MicroOp.entries, ceilingOp_loads, ceilingOp_store]
    cases hr : topReg s.target (s.inst.get s.target).wm with
    | none => simp
    | some r => simp [hfit r hr]
  · rw [hend.reg]
    simp [MicroOp.effect, ceilingOp_store, hr, hfit r hr]
  · have hframe := hend.frame
    rwa [List.flatMap_singleton, ceilingOp_writes] at hframe

/-- With a fixed ceiling the one micro-step of UPDTOP is skipped (R115). -/
theorem exec_updtop_mem_of_fixed {s t : State} {val : Half} (hq : s.quiet = true)
    (hfix : hasDynamicTop (s.inst.get s.target).wm = false)
    (he : exec (.updtop val) s = .next t) : t.mem = s.mem := by
  obtain ⟨-, ⟨hg, -⟩ | ⟨-, -, rfl⟩⟩ := exec_next_quiet he hq
  · cases hg
  · rw [scriptOf, updtopScript, ceilingOp_of_fixed _ _ hfix]
    rfl

/-- A legal UPDTOP is performed. -/
theorem exec_updtop {s : State} {val : Half} (hc : s.cfg.wf = true) (hq : s.quiet = true)
    (hp : (s.inst.get s.target).phase ≠ .unconfigured)
    (hw : (Instr.updtop val).wf s.cfg s.target = true)
    (hok : s.target.topOk (s.inst.get s.target).wm.top = true) :
    ∃ t, exec (.updtop val) s = .next t ∧ UpdtopEnd s val t :=
  have he := exec_quiet (legality_eq_none (.inl hp) hw) rfl (ceilingHazard_eq_none hok) hq
  ⟨_, he, exec_updtopEnd hc hq hw hok he⟩

/-- A second UPDTOP of the same value finds the registers and the latch as it leaves them (R115). -/
theorem UpdtopEnd.again {s t u : State} {val : Half} (h : UpdtopEnd s val t)
    (h' : UpdtopEnd t val u) : u.inst = t.inst ∧ ∀ a, u.mem.read a = t.mem.read a := by
  have hwm : (t.inst.get s.target).wm = (s.inst.get s.target).wm := by rw [h.engine]
  obtain ⟨hinst, -, hceil, hframe⟩ := h'
  rw [h.frame.target] at hinst hceil hframe
  rw [hwm] at hceil hframe
  refine ⟨PerDev.ext_get fun d => ?_, h.frame.read_eq hframe fun r hr => ?_⟩
  · rcases eq_or_ne d s.target with rfl | hd
    · rw [hinst, h.engine]
    · exact hframe.others d (by rwa [h.frame.target])
  · have hr : topReg s.target (s.inst.get s.target).wm = some r := Option.mem_toList.mp hr
    rw [hceil r hr, h.ceiling r hr]

/-- Settles O30: the one micro-step is the write of the ceiling register or is skipped, and the
second UPDTOP starts from the same captured mode. -/
theorem updtopLaws : Obligations.UpdtopLaws := by
  intro s val hc hq hp hw hok
  obtain ⟨t, he, h⟩ := exec_updtop hc hq hp hw hok
  have hcap : (t.inst.get t.target).phase = (s.inst.get s.target).phase ∧
      (t.inst.get t.target).wm = (s.inst.get s.target).wm := by
    rw [h.frame.target, h.engine]
    exact ⟨rfl, rfl⟩
  obtain ⟨hphase, hwm⟩ := hcap
  obtain ⟨u, he', h'⟩ : ∃ u, exec (.updtop val) t = .next u ∧ UpdtopEnd t val u :=
    exec_updtop (by rwa [h.frame.cfg]) (exec_keeps_quiet hq he) (by rwa [hphase])
      (by rwa [h.frame.cfg, h.frame.target]) (by rwa [hwm, h.frame.target])
  refine ⟨t, u, he, he', h.engine, fun hfix => ?_, fun hdyn => ?_, h.again h'⟩
  · have htrace := h.trace
    have hframe := h.frame
    rw [topReg_of_fixed hfix] at htrace hframe
    exact ⟨htrace.trans (List.append_nil _), exec_updtop_mem_of_fixed hq hfix he, hframe⟩
  · obtain ⟨r, hr⟩ := topReg_of_topOk hok hdyn
    have htrace := h.trace
    have hframe := h.frame
    rw [hr] at htrace hframe
    exact ⟨r, hr, htrace, h.ceiling r hr, hframe⟩

/-! ### ACTPIN (O32) -/

/-- The micro-steps of ACTPIN on a valid channel (R116). -/
def pinOps (c : DevConfig) (k : Slot) : List MicroOp :=
  [.load (.portOut (pinPort c k)), .storeClear (.portOut (pinPort c k)) (pinMask c k),
   .load (.portDir (pinPort c k)), .storeOr (.portDir (pinPort c k)) (pinMask c k)]

theorem scriptOf_actpin {ch : Channel} {k : Slot} (hk : slot ch = some k) (d : Dev) (s : State) :
    scriptOf (.actpin ch) d s = pinOps (s.dev d) k := by
  simp only [scriptOf, actpinScript, hk, pinOps]

/-- What the micro-steps of ACTPIN make of the temporary and the registers. -/
theorem foldl_effect_pinOps (c : DevConfig) (k : Slot) (v : Byte × (Reg → Half)) :
    (pinOps c k).foldl MicroOp.effect v =
      ((v.2 (.portDir (pinPort c k))).setWidth 8,
        Function.update (Function.update v.2
          (.portOut (pinPort c k))
            (busByte ((v.2 (.portOut (pinPort c k))).setWidth 8 &&& ~~~pinMask c k)))
          (.portDir (pinPort c k))
            (busByte ((v.2 (.portDir (pinPort c k))).setWidth 8 ||| pinMask c k))) := by
  simp [pinOps, MicroOp.effect, MicroOp.temp, MicroOp.store]

/-- Settles O32: the first two micro-steps clear the output bit, the last two set the direction. -/
theorem actpinMakesOutput : Obligations.ActpinMakesOutput := by
  intro s ch k o p hc hq hp hk ho hd
  have hg : guardFails (.actpin ch) = false := guardFails_of_slot rfl hk
  have he := exec_quiet (legality_eq_none (.inl hp) rfl) hg rfl hq
  have hend := exec_quietEnd (Config.wf_addrOk hc) hq hg (scriptOf_actpin hk s.target s) he
  have hview := foldl_effect_pinOps (s.dev s.target) k (s.view s.target)
  simp only [State.view, ho, hd, busByte_setWidth] at hview
  refine ⟨_, he, ?_, ?_, ?_, ?_, hend.frame⟩
  · rw [hend.reg, State.view, hview]
    simp
  · rw [hend.reg, State.view, hview]
    simp
  · rw [hend.engine, hend.temp, State.view, hview]
    rfl
  · rw [hend.trace]
    simp [pinOps, entriesOf, MicroOp.entries, MicroOp.loads, MicroOp.store, MicroOp.effect,
      MicroOp.temp, State.view, ho, hd, busByte_setWidth]

/-! ### Bits that no command clears (O38) -/

/-- An 8-bit register keeps its ones under an OR of any mask. -/
theorem reg_and_or (s : State) {r : Reg} (h : r.bytes = 1) (mask : Byte) :
    s.reg r &&& busByte ((s.reg r).setWidth 8 ||| mask) = s.reg r := by
  have habs : ∀ a : Byte, a &&& (a ||| mask) = a := fun a => by
    ext j hj
    simpa using Or.inl
  calc s.reg r &&& busByte ((s.reg r).setWidth 8 ||| mask)
      = busByte ((s.reg r).setWidth 8 &&& ((s.reg r).setWidth 8 ||| mask)) := by
        rw [← busByte_and, busByte_reg s h]
    _ = s.reg r := by rw [habs, busByte_reg s h]

/-- No command but ACTIVATE clears a bit of CTRLA: ACTCH ORs a code in, any other does not write it
(R118). -/
theorem exec_keeps_ctrlA_bits {s t : State} {i : Instr} (had : s.cfg.addrOk = true)
    (hq : s.quiet = true) (hok : s.target.topOk (s.inst.get s.target).wm.top = true)
    (ha : isActivate i = false) (he : exec i s = .next t) :
    s.reg (.ctrlA s.target) &&& t.reg (.ctrlA s.target) = s.reg (.ctrlA s.target) := by
  by_cases hi : ∃ ch com ie val, i = .actch ch com ie val
  · obtain ⟨ch, com, ie, val, rfl⟩ := hi
    obtain ⟨-, ⟨-, rfl⟩ | ⟨hg, -, rfl⟩⟩ := exec_next_quiet he hq
    · exact BitVec.and_self
    obtain ⟨k, hk⟩ := slot_isSome_of_inRange (ch := ch) hg
    obtain ⟨hA, -⟩ :=
      actch_control (com := com) (ie := ie) (val := val) (.actch ch com ie val) had hk
    rw [scriptOf, hA]
    exact reg_and_or s rfl _
  · rw [exec_reg_of_not_written had hq he (ctrlA_imask_not_written hok ha hi (.inl rfl))]
    exact BitVec.and_self

/-- Only ACTPIN writes a port register (R30). -/
theorem exec_keeps_ports {s t : State} {i : Instr} {r : Reg} (had : s.cfg.addrOk = true)
    (hq : s.quiet = true) (hi : isActpin i = false) (hr : ownerOf r = none)
    (he : exec i s = .next t) : t.reg r = s.reg r := by
  refine exec_reg_of_not_written had hq he fun hw => ?_
  rcases scriptOf_writes hw with h | ⟨h, -⟩
  · rw [hr] at h
    cases h
  · exact Bool.false_ne_true (hi.symm.trans h)

/-- ACTPIN clears no direction bit: it ORs a mask into one direction register (R116). -/
theorem actpin_keeps_direction_bits {s t : State} {ch : Channel} (had : s.cfg.addrOk = true)
    (hq : s.quiet = true) (he : exec (.actpin ch) s = .next t) (p : Port) :
    s.reg (.portDir p) &&& t.reg (.portDir p) = s.reg (.portDir p) := by
  cases hk : slot ch with
  | none =>
    obtain ⟨-, ⟨-, rfl⟩ | ⟨hg, -⟩⟩ := exec_next_quiet he hq
    · exact BitVec.and_self
    · exact absurd (hg.symm.trans ((slot_eq_none_iff ch).mp hk)) Bool.false_ne_true
  | some k =>
    have hend := exec_quietEnd had hq (guardFails_of_slot rfl hk) (scriptOf_actpin hk s.target s) he
    rw [hend.reg, foldl_effect_pinOps]
    by_cases hp : p = pinPort (s.dev s.target) k
    · subst hp
      simp only [Function.update_self]
      exact reg_and_or s rfl _
    · simp [hp, State.view]

/-- Settles O38: what a command does not write it keeps, and the OR of ACTCH and ACTPIN clears
nothing. -/
theorem noDeactivateNoDetach : Obligations.NoDeactivateNoDetach := by
  intro s t i hc hq hok he
  have had := Config.wf_addrOk hc
  refine ⟨fun ha => exec_keeps_ctrlA_bits had hq hok ha he, fun hi p =>
    ⟨exec_keeps_ports had hq hi rfl he, exec_keeps_ports had hq hi rfl he⟩, fun p => ?_⟩
  cases hi : isActpin i with
  | false =>
    rw [exec_keeps_ports had hq hi rfl he]
    exact BitVec.and_self
  | true =>
    cases i with
    | actpin ch => exact actpin_keeps_direction_bits had hq he p
    | _ => cases hi

end Sys2Proof.Machine
end

section
/-! The exception family: which commands are refused, the end of every legal command, and that no step
stops with a fault. -/

namespace Sys2Proof.Machine

/-! ### Refusals (O15) -/

/-- A command is refused, for whatever reason, exactly when it is not legal (R81, R120). -/
theorem exec_refused_exists_iff {i : Instr} {s : State} :
    (∃ r, exec i s = .refused r) ↔
      legality s.cfg s.target (s.inst.get s.target).phase i ≠ none := by
  simp only [exec_refused_iff, Option.ne_none_iff_exists']

/-- Settles O15: legality is the phase and the operands' form, and its refusal is the one reported. -/
theorem refusedExactlyWhenIllegal : Obligations.RefusedExactlyWhenIllegal := by
  intro s i
  refine ⟨?_, fun r he => ?_⟩
  · rw [exec_refused_exists_iff, Ne, legality_eq_none_iff, not_and_or, not_or, not_not,
      Bool.not_eq_true, Bool.not_eq_true]
  · have hl := exec_refused_iff.mp he
    unfold legality at hl
    split
    · next hu =>
      rw [if_pos hu] at hl
      exact (Option.some.inj hl).symm
    · next hc => rwa [if_neg hc] at hl

/-! ### The end of a legal command (O35) -/

theorem passOver_idle (s : State) (i : Instr) :
    ((s.passOver i).inst.get s.target).idle = true := by
  rw [State.passOver_inst, PerDev.get_set_same]
  rfl

/-- A legal command with no hazard ends with its sequencer idle: passed over where the channel guard
fails, else after its micro-steps, of which it has at least one (R20, R112, R129). -/
theorem exec_ends_idle {i : Instr} {s : State}
    (hl : legality s.cfg s.target (s.inst.get s.target).phase i = none)
    (hz : hazardOf i s.target s = none) :
    ∃ t, exec i s = .next t ∧ (t.inst.get s.target).idle = true := by
  cases hg : guardFails i with
  | true =>
    exact ⟨s.passOver i, (exec_eq_perform i s).trans (perform_outOfRange hl hg), passOver_idle s i⟩
  | false =>
    refine ⟨_, exec_performed hl hg hz, ?_⟩
    obtain ⟨op, ops, hs⟩ := List.exists_cons_of_ne_nil (scriptOf_ne_nil hl hg)
    rw [hs]
    exact runScript_idle _ _ _ _ (by simp)

/-- Settles O35, by the length of every command's script and the end of a legal command. -/
theorem everyLegalCommandEnds : Obligations.EveryLegalCommandEnds :=
  fun _ _ hp hw hc hz => ⟨scriptOf_length_le hc, exec_ends_idle (legality_eq_none hp hw) hz⟩

/-! ### No step faults (O58) -/

/-- A command faults only where it is legal and has a hazard (R119). -/
theorem exec_fault {i : Instr} {s : State} {f : Fault} (h : exec i s = .fault f) :
    legality s.cfg s.target (s.inst.get s.target).phase i = none ∧
      hazardOf i s.target s = some f := by
  rw [exec_eq_perform] at h
  rcases perform_cases i (hazardOf i s.target s) (scriptOf i s.target s) s with
    ⟨_, _, e⟩ | ⟨_, _, e⟩ | ⟨f', hl, _, hz, e⟩ | ⟨_, _, _, e⟩ <;> rw [e] at h
  · cases h
  · cases h
  · exact ⟨hl, hz.trans (congrArg some (Host.Outcome.fault.inj h))⟩
  · cases h

/-- A configured engine that holds a catalog row and a coded prescaler has no hazard: its ceiling
register exists and its clock-select code too (R66, R94). -/
theorem hazardOf_of_catalogued {d : Dev} {s : State}
    (h : Catalogued s.cfg d (s.inst.get d).wm (s.inst.get d).ps) (i : Instr) :
    hazardOf i d s = none := by
  obtain ⟨hcat, hwm, hps⟩ := h
  have hceil : ceilingHazard d (s.inst.get d).wm = none :=
    ceilingHazard_eq_none (catalog_row_ok hcat hwm).2
  cases i with
  | activate ie val =>
    have hcode : (psCode s.cfg d (s.inst.get d).ps).isNone = false := by
      rwa [← Option.not_isSome, Bool.not_eq_false']
    simp only [hazardOf, activateHazard, hcode, hceil, Bool.false_eq_true, if_false]
  | updtop val => exact hceil
  | _ => rfl

theorem hazardOf_of_isConfig {i : Instr} (d : Dev) (s : State) (h : isConfig i = true) :
    hazardOf i d s = none := by
  cases i with
  | config wmid psid => rfl
  | _ => cases h

/-- Where the target's engine is good, a legal command has no hazard: it is a CONFIG, or the engine is
configured (R17, R90). -/
theorem hazardOf_of_legal {i : Instr} {s : State}
    (hl : legality s.cfg s.target (s.inst.get s.target).phase i = none)
    (h : engineOk s.cfg s.target (s.inst.get s.target) = true) : hazardOf i s.target s = none := by
  obtain ⟨hp | hc, -⟩ := (legality_eq_none_iff _ _ _ _).mp hl
  · exact hazardOf_of_catalogued ((engineOk_iff.mp h).resolve_left hp) i
  · exact hazardOf_of_isConfig _ _ hc

theorem exec_ne_fault {i : Instr} {s : State} (h : s.Inv = true) (f : Fault) :
    exec i s ≠ .fault f := by
  intro he
  obtain ⟨-, -, hok⟩ := State.Inv_iff.mp h
  obtain ⟨hl, hz⟩ := exec_fault he
  rw [hazardOf_of_legal hl (hok s.target)] at hz
  cases hz

/-- A fault of an idle machine's step is the fault of the command it took. -/
theorem step_fault_idle {s : State} {f : Fault} (hi : s.allIdle = true) (h : step s = .fault f) :
    ∃ d rest i, exec i (s.present d rest) = .fault f := by
  cases hp : s.port with
  | nil =>
    simp only [step, stepMachine, busyDev_of_idle (State.allIdle_iff.mp hi), hp] at h
    cases h
  | cons c rest =>
    obtain ⟨d, w⟩ := c
    cases hw : decode w with
    | ok i => exact ⟨d, rest, i, (step_of_decode hi hp hw).symm.trans h⟩
    | error e =>
      rw [step_of_decode_error hi hp hw] at h
      cases h

/-- Settles O58: under the invariant no sequencer is busy and every configured engine holds what its
commands need. -/
theorem noFaultUnderInv : Obligations.NoFaultUnderInv := by
  intro s f h hs
  obtain ⟨-, hidle, -⟩ := State.Inv_iff.mp h
  obtain ⟨d, rest, i, he⟩ := step_fault_idle (State.allIdle_iff.mpr hidle) hs
  exact exec_ne_fault (by rwa [present_Inv]) f he

end Sys2Proof.Machine
end

section
/-! The reset and hazards family: what reset leaves, a command that a reset cancels, and the last
transaction of ACTIVATE. -/

namespace Sys2Proof.Machine

/-! ### The state after reset (O12, O54, O56) -/

theorem resetWith_get (c : Config) (d : Dev) : (State.resetWith c).inst.get d = Inst.reset := by
  cases d <;> rfl

theorem resetWith_Inv (c : Config) : (State.resetWith c).Inv = true := by
  refine State.Inv_iff.mpr ⟨Memory.ofReset_wf c, fun d => ?_, fun d => ?_⟩
  · rw [resetWith_get]
    rfl
  · exact engineOk_iff.mpr (.inl (by rw [resetWith_get]; rfl))

/-- Settles O56, as for the reset state of every configuration. -/
theorem invHoldsAtReset : Obligations.InvHoldsAtReset := resetWith_Inv Config.default

/-- Settles O54: every instance is the reset instance, and no register is listed in CSR_RESET. -/
theorem resetLeavesSpecValues : Obligations.ResetLeavesSpecValues := by
  refine ⟨fun d => ?_, readReg_nil Config.default, rfl⟩
  rw [State.reset, resetWith_get]
  exact ⟨rfl, rfl, rfl, rfl, rfl⟩

/-- An idle machine with no word presented lets an interleaving point go by (R135). -/
theorem step_of_no_word {s : State} (hi : s.allIdle = true) (hp : s.port = []) :
    step s = .next (interleave s) := by
  simp only [step, stepMachine, busyDev_of_idle (State.allIdle_iff.mp hi), hp]

/-- Settles O12: the reset state is idle, and no move is to come. -/
theorem resetMachineWaits : Obligations.ResetMachineWaits := by
  obtain ⟨-, hidle, -⟩ := State.Inv_iff.mp invHoldsAtReset
  exact (step_of_no_word (State.allIdle_iff.mpr hidle) rfl).trans
    (congrArg _ (interleave_of_agenda_nil rfl))

/-! ### A command that a reset cancels (O48) -/

/-- Moves without a reset keep every engine, ghost and sequencer register (R53). -/
theorem interleave_inst_of_no_reset {s : State} {q : List EnvMove} {qs : List (List EnvMove)}
    (h : s.agenda = q :: qs) (hq : ∀ m ∈ q, isReset m = false) : (interleave s).inst = s.inst := by
  rw [interleave_of_agenda_cons h]
  refine List.foldlRecOn (motive := fun t : State => t.inst = s.inst) q envMove rfl
    fun t ht m hm => ?_
  rcases envMove_inst t m with e | ⟨rfl, -⟩
  · exact e.trans ht
  · exact absurd (hq .reset hm) (by decide)

/-- An interleaving point whose last move is a reset leaves the reset state (R133). -/
theorem interleave_of_reset_last {s : State} {p : List EnvMove} {ps : List (List EnvMove)}
    (h : s.agenda = (p ++ [.reset]) :: ps) :
    interleave s = (interleave { s with agenda := p :: ps }).resetNow := by
  simp only [interleave, h, List.foldl_append]
  rfl

theorem interleave_inst_of_reset_last {s : State} {p : List EnvMove} {ps : List (List EnvMove)}
    (h : s.agenda = (p ++ [.reset]) :: ps) :
    (interleave s).inst = ⟨Inst.reset, Inst.reset, Inst.reset⟩ := by
  rw [interleave_of_reset_last h]
  rfl

/-- Micro-steps in progress issue their transactions in order, whatever the environment does (R59). -/
theorem ranTo_seqAccesses (d : Dev) (ops : List MicroOp) (s : State) :
    seqAccesses (ranTo d ops s).trace = seqAccesses s.trace ++ ops.flatMap opAccess := by
  induction ops generalizing s with
  | nil => simp [ranTo]
  | cons op ops ih =>
    refine (ih _).trans ?_
    rw [seqStep_seqAccesses, interleave_seqAccesses, List.append_assoc, List.flatMap_cons]

/-- A command stops at the interleaving point that ends in a reset: of its micro-steps those before
that point are performed (R133). -/
theorem runScript_of_reset {d : Dev} {ops : List MicroOp} {s : State} {pre : List (List EnvMove)}
    {p : List EnvMove} {ps : List (List EnvMove)} (hb : (s.inst.get d).busy = true)
    (ha : s.agenda = pre ++ (p ++ [.reset]) :: ps) (hpre : ∀ q ∈ pre, ∀ m ∈ q, isReset m = false)
    (hlen : pre.length < ops.length) :
    runScript d ops s = interleave (ranTo d (ops.take pre.length) s) := by
  obtain ⟨op, ops, rfl⟩ := List.exists_cons_of_length_pos (Nat.zero_lt_of_lt hlen)
  induction pre generalizing op ops s with
  | nil =>
    have hidle : ((interleave s).inst.get d).busy = false := by
      rw [interleave_inst_of_reset_last ha]
      cases d <;> rfl
    rw [runScript, hidle, if_neg Bool.false_ne_true]
    rfl
  | cons q pre ih =>
    have hi := interleave_inst_of_no_reset ha (hpre q List.mem_cons_self)
    have hlen' : pre.length < ops.length := Nat.lt_of_succ_lt_succ hlen
    obtain ⟨op', ops, rfl⟩ := List.exists_cons_of_length_pos (Nat.zero_lt_of_lt hlen')
    rw [runScript, hi, if_pos hb]
    exact ih ((seqStep_busy d op (interleave s)).trans (by rwa [hi])) (by simp [ha])
      (fun q' hq' => hpre q' (List.mem_cons_of_mem q hq')) op' ops hlen'

/-- Settles O48: the command stops at the reset, which leaves reset values and no trace entry. -/
theorem resetCancelsCommand : Obligations.ResetCancelsCommand := by
  intro s i pre p ps hp hw hg hz ha hpre hlen
  have hstop := runScript_of_reset (s := s.accept i) (d := s.target) (by simp) ha hpre hlen
  have hagenda : (ranTo s.target ((scriptOf i s.target s).take pre.length) (s.accept i)).agenda =
      (p ++ [.reset]) :: ps := by
    rw [ranTo_agenda, List.length_take_of_le hlen.le, State.accept_agenda, ha, List.drop_left]
  have hreset := interleave_of_reset_last hagenda
  refine ⟨_, exec_performed (legality_eq_none hp hw) hg hz, ?_⟩
  rw [hstop]
  refine ⟨interleave_inst_of_reset_last hagenda, ?_, ?_, ?_⟩
  · rw [hreset]
    exact congrArg Memory.ofReset (by simp)
  · rw [hreset]
    rfl
  · rw [interleave_seqAccesses, ranTo_seqAccesses, State.accept_trace]

/-! ### The last transaction of ACTIVATE (O34) -/

/-- The entries of a trace that are transactions of the sequencer, with their values. -/
def seqEvents (tr : List BusEvent) : List BusEvent := tr.filter fun e => (seqAccess e).isSome

theorem seqEvents_append_env (tr : List BusEvent) {e : BusEvent} (h : seqAccess e = none) :
    seqEvents (tr ++ [e]) = seqEvents tr := by
  simp [seqEvents, h]

theorem envMove_seqEvents (s : State) (m : EnvMove) :
    seqEvents (envMove s m).trace = seqEvents s.trace := by
  rcases envMove_cases s m with h | ⟨_, he, h⟩ | ⟨_, _, _, he, h⟩ | ⟨_, _, h⟩ | ⟨_, h⟩ <;> rw [h]
  · exact seqEvents_append_env _ he
  · exact seqEvents_append_env _ he
  · rfl

/-- The environment adds no transaction of the sequencer (R60). -/
theorem interleave_seqEvents (s : State) : seqEvents (interleave s).trace = seqEvents s.trace :=
  interleave_induct (P := fun t => seqEvents t.trace = seqEvents s.trace) s
    (fun t m h => by rw [envMove_seqEvents, h]) rfl

theorem seqStep_write_seqEvents_getLast? (d : Dev) (r : Reg) (v : Half) (l : Bool) (s : State) :
    (seqEvents (seqStep d (.write r v) l s).trace).getLast? = some (.seqWrite r (fitReg r v)) := by
  simp [seqStep_trace, MicroOp.events, seqEvents, seqAccess]

theorem seqStep_start_seqEvents (d : Dev) (l : Bool) (s : State) :
    seqEvents (seqStep d .start l s).trace = seqEvents s.trace := by
  simp [seqStep_trace, MicroOp.events]

/-- With no reset to come, a command whose micro-steps end with a write and the start of the engine
has that write as its last transaction. -/
theorem runScript_getLast?_of_write_start {d : Dev} {ops : List MicroOp} {r : Reg} {v : Half}
    {s : State} (hn : s.noReset = true) (hb : (s.inst.get d).busy = true) :
    (seqEvents (runScript d ((ops ++ [.write r v]) ++ [.start]) s).trace).getLast? =
      some (.seqWrite r (fitReg r v)) := by
  rw [runScript_eq_ranTo d _ _ s hn hb, ranTo_concat, seqStep_start_seqEvents, interleave_seqEvents,
    seqStep_write_seqEvents_getLast?]

/-- The micro-steps of ACTIVATE end with the write of CTRLB and the engine update (R103). -/
theorem activateScript_ends (ie : Bool) (val : Half) (d : Dev) (s : State) :
    ∃ ops, activateScript ie val d s =
      (ops ++ [.write (.ctrlB d) (busByte (wgmB (s.dev d) (s.inst.get d).wm.mode |||
        csField (s.dev d) (clockCode d s)))]) ++ [.start] :=
  ⟨zeroScript (s.dev d) d ++ [.load (.imask d), .storeBit (.imask d) (toieMask (s.dev d)) ie,
    ceilingOp d (s.inst.get d).wm val, .load (.ctrlA d),
    .storeOr (.ctrlA d) (wgmA (s.dev d) (s.inst.get d).wm.mode)], by simp [activateScript]⟩

/-- Settles O34: after the write of CTRLB come an engine update and moves of the environment, which
are no transactions of the sequencer. -/
theorem activateWritesClockLast : Obligations.ActivateWritesClockLast := by
  intro s t ie val code hn hps he
  obtain ⟨-, ⟨hg, -⟩ | ⟨-, -, rfl⟩⟩ := exec_next_cases he
  · cases hg
  obtain ⟨ops, hops⟩ := activateScript_ends ie val s.target s
  change (seqEvents (runScript s.target (activateScript ie val s.target s) _).trace).getLast? = _
  rw [hops, runScript_getLast?_of_write_start (s := s.accept _) hn (by simp), fitReg_busByte,
    clockCode_eq hps]

end Sys2Proof.Machine
end
